-- ==== Sys2Proof/Word.lean ====
section
/-! DEFINITION. The word types of CORE: bytes, instruction words, nibbles, 12-bit immediates, register numbers (R6, R20, R82). -/

namespace Sys2Proof

/-- An 8-bit unsigned value: a register, a memory byte, `kk` (R20, R25, R82). -/
abbrev Byte := BitVec 8

/-- A 16-bit unsigned value: an instruction word, `I`, `ca`, a stack entry (R22, R23, R24, R81). -/
abbrev Word := BitVec 16

/-- A 4-bit field of an instruction word: `class`, `n` (R82). -/
abbrev Nibble := BitVec 4

/-- The 12-bit address immediate `nnn` (R82, R84). -/
abbrev Imm12 := BitVec 12

/-- A general register's number, 0..15 (R20). -/
abbrev Reg := Fin 16

end Sys2Proof
end

