-- ==== Sys2Proof/Config.lean ====
section
/-! DEFINITION. The parameters of R5 and of 92_eei_decisions.md ("Open parameters in one list"), and the free value: the random byte. -/

namespace Sys2Proof

/-- The parameters a model takes as configuration fields, each with the spec's default (R5; D1, D2, D3, D10, D16). -/
structure Config where
  /-- `MEM_SIZE`: bytes of `ram` (R5, D1). -/
  memSize : Nat := 0x1000
  /-- `ADDR_CEILING`: the address ceiling `Fx1E` tests (R5, D2). -/
  addrCeiling : Nat := memSize - 1
  /-- `FX1E_CLEARS_VF`: whether `Fx1E` writes 0 to `VF` when the ceiling is not exceeded (D3, U7). -/
  fx1eClearsVF : Bool := false
  /-- `CLASS9_CHECKS_N`: whether a class-9 word with `n != 0` is ILLEGAL (D10, U17). -/
  class9ChecksN : Bool := false
  /-- `FB_W`: framebuffer width in pixels (R5, D16). -/
  fbW : Nat := 64
  /-- `FB_H`: framebuffer height in pixels (R5, D16). -/
  fbH : Nat := 32
  deriving DecidableEq, Repr

/-- Every parameter at the default of R5: the hardware the spec specifies. -/
def Config.standard : Config := {}

/-- The range D1 keeps `MEM_SIZE` in. -/
def Config.wf (c : Config) : Bool := decide (0x202 ≤ c.memSize) && decide (c.memSize ≤ 0x1000)

/-- `PROG_BASE`: the program load address and the reset value of `ca` (R5). -/
abbrev Config.progBase : Nat := 0x200

/-- `MAX_IMAGE`: the length of the largest loadable program (R5). -/
def Config.maxImage (c : Config) : Nat := c.memSize - Config.progBase

/-- The byte the random-source port delivers at draw number `k`: an unconstrained input of the step (R222, U10).
It has no body, so no proof can use what it is (log entry 2, DESIGN CHOICE for the form). -/
opaque Config.randByte : Nat → Byte

end Sys2Proof
end

