-- ==== Sys2Proof/Syntax.lean ====
section
/-! DEFINITION. The instructions: one constructor per row of spec/opcode_table.json (R86), in the table's order.
Every field of a row's word that is not fixed is kept, the don't-care bits too (R89), so an instruction determines its word. -/

namespace Sys2Proof

/-- The 34 instruction patterns of R86. -/
inductive Instr where
  /-- `00E0` CLS (R130). -/
  | cls
  /-- `00EE` RET (R131). -/
  | ret
  /-- `1nnn` JP nnn (R132). -/
  | jp (nnn : Imm12)
  /-- `2nnn` CALL nnn (R133). -/
  | call (nnn : Imm12)
  /-- `3xkk` SE Vx, kk (R150). -/
  | seVxKk (x : Reg) (kk : Byte)
  /-- `4xkk` SNE Vx, kk (R151). -/
  | sneVxKk (x : Reg) (kk : Byte)
  /-- `5xy0` SE Vx, Vy (R134). -/
  | seVxVy (x y : Reg)
  /-- `6xkk` LD Vx, kk (R152). -/
  | ldVxKk (x : Reg) (kk : Byte)
  /-- `7xkk` ADD Vx, kk (R153). -/
  | addVxKk (x : Reg) (kk : Byte)
  /-- `8xy0` LD Vx, Vy (R161). -/
  | ldVxVy (x y : Reg)
  /-- `8xy1` OR Vx, Vy (R162). -/
  | orVxVy (x y : Reg)
  /-- `8xy2` AND Vx, Vy (R163). -/
  | andVxVy (x y : Reg)
  /-- `8xy3` XOR Vx, Vy (R164). -/
  | xorVxVy (x y : Reg)
  /-- `8xy4` ADD Vx, Vy (R165). -/
  | addVxVy (x y : Reg)
  /-- `8xy5` SUB Vx, Vy (R166). -/
  | subVxVy (x y : Reg)
  /-- `8xy6` SHR Vx (R167); `y` is encoded and not used (R89). -/
  | shrVx (x y : Reg)
  /-- `8xy7` SUBN Vx, Vy (R168). -/
  | subnVxVy (x y : Reg)
  /-- `8xyE` SHL Vx (R169); `y` is encoded and not used (R89). -/
  | shlVx (x y : Reg)
  /-- `9xyn` SNE Vx, Vy (R135); `n` is encoded and not examined (R89). -/
  | sneVxVy (x y : Reg) (n : Nibble)
  /-- `Annn` LD I, nnn (R180). -/
  | ldINnn (nnn : Imm12)
  /-- `Bnnn` JP V0, nnn (R136). -/
  | jpV0Nnn (nnn : Imm12)
  /-- `Cxkk` RND Vx, kk (R200). -/
  | rndVxKk (x : Reg) (kk : Byte)
  /-- `Dxyn` DRW Vx, Vy, n: placeholder (R191). -/
  | drwVxVyN (x y : Reg) (n : Nibble)
  /-- `Ex9E` SKP Vx: placeholder (R192). -/
  | skpVx (x : Reg)
  /-- `ExA1` SKNP Vx: placeholder (R193). -/
  | sknpVx (x : Reg)
  /-- `Fx07` LD Vx, DT (R201). -/
  | ldVxDt (x : Reg)
  /-- `Fx0A` LD Vx, K: placeholder (R194). -/
  | ldVxK (x : Reg)
  /-- `Fx15` LD DT, Vx (R202). -/
  | ldDtVx (x : Reg)
  /-- `Fx18` LD ST, Vx (R203). -/
  | ldStVx (x : Reg)
  /-- `Fx1E` ADD I, Vx (R181). -/
  | addIVx (x : Reg)
  /-- `Fx29` LD F, Vx: placeholder (R195). -/
  | ldFVx (x : Reg)
  /-- `Fx33` LD B, Vx: placeholder (R196). -/
  | ldBVx (x : Reg)
  /-- `Fx55` LD [I], Vx (R182). -/
  | ldMemIVx (x : Reg)
  /-- `Fx65` LD Vx, [I] (R183). -/
  | ldVxMemI (x : Reg)
  deriving DecidableEq, Repr

end Sys2Proof
end

