-- ==== Sys2Proof/WellFormed.lean ====
section
/-! DEFINITION. Which instructions have a word. The field types carry every width, so the one check left is the
trailing nibble of class 9 under the parameter `CLASS9_CHECKS_N` (R89, D10). -/

namespace Sys2Proof

/-- `i` has a word that decodes to it: always, but that with `CLASS9_CHECKS_N` a class-9 instruction has `n = 0`. -/
def Instr.wellFormed (c : Config) : Instr → Bool
  | .sneVxVy _ _ n => !c.class9ChecksN || n == 0
  | .cls | .ret | .jp _ | .call _ | .seVxKk _ _ | .sneVxKk _ _ | .seVxVy _ _ | .ldVxKk _ _ | .addVxKk _ _ => true
  | .ldVxVy _ _ | .orVxVy _ _ | .andVxVy _ _ | .xorVxVy _ _ | .addVxVy _ _ | .subVxVy _ _ | .shrVx _ _ => true
  | .subnVxVy _ _ | .shlVx _ _ | .ldINnn _ | .jpV0Nnn _ | .rndVxKk _ _ | .drwVxVyN _ _ _ | .skpVx _ | .sknpVx _ => true
  | .ldVxDt _ | .ldVxK _ | .ldDtVx _ | .ldStVx _ | .addIVx _ | .ldFVx _ | .ldBVx _ | .ldMemIVx _ | .ldVxMemI _ => true

end Sys2Proof
end

