-- ==== Sys2Proof/Decode.lean ====
section
/-! DEFINITION. The instruction word and its fields (R81, R82), the decode tree (R85), the encoder (R83, R86) and the
opcode map as data (R86). Decoding is total: a word of R87 is rejected under the name of its class. -/

namespace Sys2Proof

/-- Why a word is ILLEGAL: one name per row of R87, and class 9 under `CLASS9_CHECKS_N` (D10). -/
inductive DecodeReject where
  /-- A word `0nnn` other than `00E0` and `00EE` (R87, D11). -/
  | illegalClass0
  /-- A word `5xyn` with `n != 0` (R87). -/
  | illegalClass5
  /-- A word `8xyn` with `n` in 8, 9, A, B, C, D, F (R87, R170). -/
  | illegalClass8
  /-- A word `9xyn` with `n != 0` where `CLASS9_CHECKS_N` holds (D10). -/
  | illegalClass9
  /-- A word `Exkk` with `kk` not 9E or A1 (R87). -/
  | illegalClassE
  /-- A word `Fxkk` with `kk` not among the nine selectors (R87). -/
  | illegalClassF
  deriving DecidableEq, Repr

/-! ## The word and its fields -/

/-- `opcode = byte0 ## byte1` (R51, R81). -/
def wordOf (byte0 byte1 : Byte) : Word := byte0 ++ byte1

/-- `byte0`, the byte at the lower address (R81). -/
def byteHi (w : Word) : Byte := w.extractLsb' 8 8

/-- `byte1` (R81). -/
def byteLo (w : Word) : Byte := w.extractLsb' 0 8

/-- Bits 15..12: the primary opcode class (R82). -/
def fieldClass (w : Word) : Nibble := w.extractLsb' 12 4

/-- Bits 11..8: the first register number (R82). -/
def fieldX (w : Word) : Reg := (w.extractLsb' 8 4).toFin

/-- Bits 7..4: the second register number (R82). -/
def fieldY (w : Word) : Reg := (w.extractLsb' 4 4).toFin

/-- Bits 3..0: the trailing nibble (R82). -/
def fieldN (w : Word) : Nibble := w.extractLsb' 0 4

/-- Bits 7..0: the byte immediate or selector (R82). -/
def fieldKk (w : Word) : Byte := w.extractLsb' 0 8

/-- Bits 11..0: the address immediate (R82, R84). -/
def fieldNnn (w : Word) : Imm12 := w.extractLsb' 0 12

/-! ## Decoding -/

/-- Class 0: all 12 low bits are checked (R85). -/
def decodeClass0 (nnn : Imm12) : Except DecodeReject Instr :=
  match nnn with
  | 0x0E0#12 => .ok .cls
  | 0x0EE#12 => .ok .ret
  | _ => .error .illegalClass0

/-- Class 8: the nine sub-operations of the trailing nibble (R85). -/
def decodeClass8 (x y : Reg) (n : Nibble) : Except DecodeReject Instr :=
  match n with
  | 0x0#4 => .ok (.ldVxVy x y)
  | 0x1#4 => .ok (.orVxVy x y)
  | 0x2#4 => .ok (.andVxVy x y)
  | 0x3#4 => .ok (.xorVxVy x y)
  | 0x4#4 => .ok (.addVxVy x y)
  | 0x5#4 => .ok (.subVxVy x y)
  | 0x6#4 => .ok (.shrVx x y)
  | 0x7#4 => .ok (.subnVxVy x y)
  | 0xE#4 => .ok (.shlVx x y)
  | _ => .error .illegalClass8

/-- Class E: the selector byte (R85). -/
def decodeClassE (x : Reg) (kk : Byte) : Except DecodeReject Instr :=
  match kk with
  | 0x9E#8 => .ok (.skpVx x)
  | 0xA1#8 => .ok (.sknpVx x)
  | _ => .error .illegalClassE

/-- Class F: the selector byte (R85). -/
def decodeClassF (x : Reg) (kk : Byte) : Except DecodeReject Instr :=
  match kk with
  | 0x07#8 => .ok (.ldVxDt x)
  | 0x0A#8 => .ok (.ldVxK x)
  | 0x15#8 => .ok (.ldDtVx x)
  | 0x18#8 => .ok (.ldStVx x)
  | 0x1E#8 => .ok (.addIVx x)
  | 0x29#8 => .ok (.ldFVx x)
  | 0x33#8 => .ok (.ldBVx x)
  | 0x55#8 => .ok (.ldMemIVx x)
  | 0x65#8 => .ok (.ldVxMemI x)
  | _ => .error .illegalClassF

/-- The decode tree of R85 on an instruction word; `CLASS9_CHECKS_N` decides class 9 (R89, D10).
The last arm is class F, the one class value left (R113: a class outside 0x0..0xF does not exist). -/
def decodeWord (c : Config) (w : Word) : Except DecodeReject Instr :=
  match fieldClass w with
  | 0x0#4 => decodeClass0 (fieldNnn w)
  | 0x1#4 => .ok (.jp (fieldNnn w))
  | 0x2#4 => .ok (.call (fieldNnn w))
  | 0x3#4 => .ok (.seVxKk (fieldX w) (fieldKk w))
  | 0x4#4 => .ok (.sneVxKk (fieldX w) (fieldKk w))
  | 0x5#4 => if fieldN w = 0 then .ok (.seVxVy (fieldX w) (fieldY w)) else .error .illegalClass5
  | 0x6#4 => .ok (.ldVxKk (fieldX w) (fieldKk w))
  | 0x7#4 => .ok (.addVxKk (fieldX w) (fieldKk w))
  | 0x8#4 => decodeClass8 (fieldX w) (fieldY w) (fieldN w)
  | 0x9#4 =>
    if c.class9ChecksN && fieldN w != 0 then .error .illegalClass9
    else .ok (.sneVxVy (fieldX w) (fieldY w) (fieldN w))
  | 0xA#4 => .ok (.ldINnn (fieldNnn w))
  | 0xB#4 => .ok (.jpV0Nnn (fieldNnn w))
  | 0xC#4 => .ok (.rndVxKk (fieldX w) (fieldKk w))
  | 0xD#4 => .ok (.drwVxVyN (fieldX w) (fieldY w) (fieldN w))
  | 0xE#4 => decodeClassE (fieldX w) (fieldKk w)
  | _ => decodeClassF (fieldX w) (fieldKk w)

/-- Decoding the two fetched bytes; every instruction is exactly two bytes long (R80). -/
def decode (c : Config) (byte0 byte1 : Byte) : Except DecodeReject Instr := decodeWord c (wordOf byte0 byte1)

/-! ## Encoding -/

/-- A register number as its field's four bits (R82). -/
def regBits (x : Reg) : Nibble := BitVec.ofFin x

/-- Format `NNN` (R83). -/
def wordNNN (cls : Nibble) (nnn : Imm12) : Word := cls ++ nnn

/-- Formats `XKK` and `XSS`: class, register, byte (R83). -/
def wordXKK (cls : Nibble) (x : Reg) (kk : Byte) : Word := cls ++ (regBits x ++ kk)

/-- Format `XYN` (R83). -/
def wordXYN (cls : Nibble) (x y : Reg) (n : Nibble) : Word := cls ++ (regBits x ++ (regBits y ++ n))

/-- The word of an instruction, from the patterns of R86. -/
def encodeWord : Instr → Word
  | .cls => 0x00E0
  | .ret => 0x00EE
  | .jp nnn => wordNNN 0x1 nnn
  | .call nnn => wordNNN 0x2 nnn
  | .seVxKk x kk => wordXKK 0x3 x kk
  | .sneVxKk x kk => wordXKK 0x4 x kk
  | .seVxVy x y => wordXYN 0x5 x y 0x0
  | .ldVxKk x kk => wordXKK 0x6 x kk
  | .addVxKk x kk => wordXKK 0x7 x kk
  | .ldVxVy x y => wordXYN 0x8 x y 0x0
  | .orVxVy x y => wordXYN 0x8 x y 0x1
  | .andVxVy x y => wordXYN 0x8 x y 0x2
  | .xorVxVy x y => wordXYN 0x8 x y 0x3
  | .addVxVy x y => wordXYN 0x8 x y 0x4
  | .subVxVy x y => wordXYN 0x8 x y 0x5
  | .shrVx x y => wordXYN 0x8 x y 0x6
  | .subnVxVy x y => wordXYN 0x8 x y 0x7
  | .shlVx x y => wordXYN 0x8 x y 0xE
  | .sneVxVy x y n => wordXYN 0x9 x y n
  | .ldINnn nnn => wordNNN 0xA nnn
  | .jpV0Nnn nnn => wordNNN 0xB nnn
  | .rndVxKk x kk => wordXKK 0xC x kk
  | .drwVxVyN x y n => wordXYN 0xD x y n
  | .skpVx x => wordXKK 0xE x 0x9E
  | .sknpVx x => wordXKK 0xE x 0xA1
  | .ldVxDt x => wordXKK 0xF x 0x07
  | .ldVxK x => wordXKK 0xF x 0x0A
  | .ldDtVx x => wordXKK 0xF x 0x15
  | .ldStVx x => wordXKK 0xF x 0x18
  | .addIVx x => wordXKK 0xF x 0x1E
  | .ldFVx x => wordXKK 0xF x 0x29
  | .ldBVx x => wordXKK 0xF x 0x33
  | .ldMemIVx x => wordXKK 0xF x 0x55
  | .ldVxMemI x => wordXKK 0xF x 0x65

/-- The two bytes of an instruction, `byte0` first (R81). -/
def encode (i : Instr) : Byte × Byte := (byteHi (encodeWord i), byteLo (encodeWord i))

/-! ## The opcode map as data -/

/-- A row's status: it has semantics, or it is a NOT_IMPLEMENTED placeholder (R86). -/
inductive RowStatus where
  /-- The pattern has semantics. -/
  | exec
  /-- The pattern is a NOT_IMPLEMENTED placeholder. -/
  | stub
  deriving DecidableEq, Repr

/-- A row of the opcode map: a word `w` selects it when `w & mask = pattern` (R86). -/
structure OpcodeRow where
  /-- The table's `match`. -/
  pattern : Word
  /-- The table's `mask`. -/
  mask : Word
  /-- The table's `status`. -/
  status : RowStatus
  deriving DecidableEq, Repr

/-- `w` selects the row (R86). -/
def OpcodeRow.selects (r : OpcodeRow) (w : Word) : Bool := w &&& r.mask == r.pattern

/-- The row of R86 an instruction belongs to, in the table's order. -/
def Instr.row : Instr → OpcodeRow
  | .cls => ⟨0x00E0, 0xFFFF, .exec⟩
  | .ret => ⟨0x00EE, 0xFFFF, .exec⟩
  | .jp _ => ⟨0x1000, 0xF000, .exec⟩
  | .call _ => ⟨0x2000, 0xF000, .exec⟩
  | .seVxKk _ _ => ⟨0x3000, 0xF000, .exec⟩
  | .sneVxKk _ _ => ⟨0x4000, 0xF000, .exec⟩
  | .seVxVy _ _ => ⟨0x5000, 0xF00F, .exec⟩
  | .ldVxKk _ _ => ⟨0x6000, 0xF000, .exec⟩
  | .addVxKk _ _ => ⟨0x7000, 0xF000, .exec⟩
  | .ldVxVy _ _ => ⟨0x8000, 0xF00F, .exec⟩
  | .orVxVy _ _ => ⟨0x8001, 0xF00F, .exec⟩
  | .andVxVy _ _ => ⟨0x8002, 0xF00F, .exec⟩
  | .xorVxVy _ _ => ⟨0x8003, 0xF00F, .exec⟩
  | .addVxVy _ _ => ⟨0x8004, 0xF00F, .exec⟩
  | .subVxVy _ _ => ⟨0x8005, 0xF00F, .exec⟩
  | .shrVx _ _ => ⟨0x8006, 0xF00F, .exec⟩
  | .subnVxVy _ _ => ⟨0x8007, 0xF00F, .exec⟩
  | .shlVx _ _ => ⟨0x800E, 0xF00F, .exec⟩
  | .sneVxVy _ _ _ => ⟨0x9000, 0xF000, .exec⟩
  | .ldINnn _ => ⟨0xA000, 0xF000, .exec⟩
  | .jpV0Nnn _ => ⟨0xB000, 0xF000, .exec⟩
  | .rndVxKk _ _ => ⟨0xC000, 0xF000, .exec⟩
  | .drwVxVyN _ _ _ => ⟨0xD000, 0xF000, .stub⟩
  | .skpVx _ => ⟨0xE09E, 0xF0FF, .stub⟩
  | .sknpVx _ => ⟨0xE0A1, 0xF0FF, .stub⟩
  | .ldVxDt _ => ⟨0xF007, 0xF0FF, .exec⟩
  | .ldVxK _ => ⟨0xF00A, 0xF0FF, .stub⟩
  | .ldDtVx _ => ⟨0xF015, 0xF0FF, .exec⟩
  | .ldStVx _ => ⟨0xF018, 0xF0FF, .exec⟩
  | .addIVx _ => ⟨0xF01E, 0xF0FF, .exec⟩
  | .ldFVx _ => ⟨0xF029, 0xF0FF, .stub⟩
  | .ldBVx _ => ⟨0xF033, 0xF0FF, .stub⟩
  | .ldMemIVx _ => ⟨0xF055, 0xF0FF, .exec⟩
  | .ldVxMemI _ => ⟨0xF065, 0xF0FF, .exec⟩

/-- The opcode map: the 34 rows of R86, each named by an instruction of its pattern. -/
def opcodeMap : List OpcodeRow :=
  [.cls, .ret, .jp 0, .call 0, .seVxKk 0 0, .sneVxKk 0 0, .seVxVy 0 0, .ldVxKk 0 0, .addVxKk 0 0,
   .ldVxVy 0 0, .orVxVy 0 0, .andVxVy 0 0, .xorVxVy 0 0, .addVxVy 0 0, .subVxVy 0 0, .shrVx 0 0,
   .subnVxVy 0 0].map Instr.row ++
  [.shlVx 0 0, .sneVxVy 0 0 0, .ldINnn 0, .jpV0Nnn 0, .rndVxKk 0 0, .drwVxVyN 0 0 0, .skpVx 0, .sknpVx 0,
   .ldVxDt 0, .ldVxK 0, .ldDtVx 0, .ldStVx 0, .addIVx 0, .ldFVx 0, .ldBVx 0, .ldMemIVx 0, .ldVxMemI 0].map Instr.row

/-- Whether an instruction is one of the six NOT_IMPLEMENTED placeholders (R88, R190). -/
def Instr.isStub (i : Instr) : Bool := i.row.status == .stub

/-- What R90 classifies a word as. -/
inductive WordClass where
  /-- The word executes an instruction with semantics. -/
  | exec
  /-- The word is one of a placeholder pattern (R88). -/
  | notImplemented
  /-- The word matches no pattern (R87). -/
  | illegal
  deriving DecidableEq, Repr

/-- The classification of a word (R90). -/
def classify (c : Config) (w : Word) : WordClass :=
  match decodeWord c w with
  | .ok i => if i.isStub then .notImplemented else .exec
  | .error _ => .illegal

/-! ## The host's reading of a table word -/

/-- The instruction word whose low `nbits` bits are those of `w` and whose other bits are 0. -/
def tableWord (nbits w : Nat) : Word := BitVec.ofNat 16 (w % 2 ^ nbits)

/-- What the decoder, with the default parameters, reads from a table word laid out as the hardware stores it: the high byte first (R51). -/
def decodeTableWord (nbits w : Nat) : Option Instr :=
  (decode Config.standard (byteHi (tableWord nbits w)) (byteLo (tableWord nbits w))).toOption

end Sys2Proof
end

