-- ==== Sys2Proof/Machine/State.lean ====
section
/-! DEFINITION. The state of CORE (R20 to R29), its reset value (R32), and the reasons a step could stop.
The state is plain data: what the spec gives the machine, the parameters it runs with, and the traces of its output ports. -/

namespace Sys2Proof.Machine

/-- Byte-addressed plain data in one canonical form: addresses strictly rising, no entry with the value 0, which is what
an unlisted address reads as (R25: every byte is 0 at reset). -/
abbrev Memory := List Host.Cell

/-- The eight diagnostic kinds of R211. -/
inductive DiagKind where
  /-- The word matches no instruction (R115). -/
  | illegal
  /-- The word is one of the six placeholder patterns (R116). -/
  | notImplemented
  /-- A jump target at or above `MEM_SIZE` (R132, R136). -/
  | jumpRange
  /-- A jump to the jump's own address (R132, R136). -/
  | endlessLoop
  /-- A CALL with a full stack (R133). -/
  | stackOverflow
  /-- A RET with an empty stack (R131). -/
  | stackUnderflow
  /-- A block transfer reaching beyond memory (R182, R183). -/
  | memRange
  /-- A fetch reaching beyond memory (R112). -/
  | fetchRange
  deriving DecidableEq, Repr

/-- A record of the diagnostic output (R29, R211). -/
structure DiagRecord where
  /-- The kind of the condition. -/
  kind : DiagKind
  /-- `ca` at the fetch. -/
  addr : Word
  /-- The fetched bytes, `byte0` first; absent for the fetch-range diagnostic. -/
  bytes : Option (Byte × Byte)
  deriving DecidableEq, Repr

/-- An event on the display port (R221). -/
inductive DisplayEvent where
  /-- `clear()`. -/
  | clear
  /-- `update(framebuffer)`. -/
  | update (fb : Memory)
  deriving DecidableEq, Repr

/-- Everything the spec gives the machine, with the model's own fields `cfg`, `draws` and the two output traces. -/
structure State where
  /-- The parameters this machine is built with (R5); no step changes them (log entry 1, DESIGN CHOICE). -/
  cfg : Config
  /-- `V[0]`..`V[15]`; `VF` is `V[15]` (R20, R21). -/
  v : Vector Byte 16
  /-- `I` (R22). -/
  idx : Word
  /-- `ca`, the program counter (R23). -/
  ca : Word
  /-- `sp`, 0 to 16: the number of stack entries in use (R24). -/
  sp : Fin 17
  /-- `stack[0]`..`stack[15]` (R24). -/
  stack : Vector Word 16
  /-- `ram` (R25). -/
  ram : Memory
  /-- `DT`, `delay_timer` (R26). -/
  dt : Byte
  /-- `ST`, `sound_timer` (R26). -/
  st : Byte
  /-- `fb`, by pixel number `row * FB_W + column` (R27; log entry 6, DESIGN CHOICE). -/
  fb : Memory
  /-- `DIAG`, oldest record first: an output trace (R29). -/
  diag : List DiagRecord
  /-- The events sent on the display port, oldest first: an output trace (R221; log entry 4, DESIGN CHOICE). -/
  display : List DisplayEvent
  /-- The number of bytes taken from the random-source port: the model's own counter (R222; log entry 2, DESIGN CHOICE). -/
  draws : Nat
  deriving DecidableEq, Repr

/-- The reasons a step stops with a fault: none. "this hardware has no trap, exception or interrupt mechanism" (R210) and the
step operation "is always enabled, in every state" (R243), so no constructor raises one. -/
inductive Fault where
  deriving DecidableEq, Repr

/-- The reasons a step is refused. -/
inductive Refusal where
  /-- An instruction of the opcode table without a meaning, by its mnemonic; raised by an arm of exec only, and by none here.
  Safe: nothing can be proved of what such an instruction does. -/
  | notModelled (mnemonic : String)
  deriving DecidableEq, Repr

/-- What an instruction or a step answers. -/
abbrev Result := Host.Outcome State Fault Refusal

/-- The machine as it is created with the parameters `c`: "all state is created zeroed except `ca`" (R32, R240). -/
def State.create (c : Config) : State where
  cfg := c
  v := Vector.replicate 16 0
  idx := 0
  ca := 0x200
  sp := 0
  stack := Vector.replicate 16 0
  ram := []
  dt := 0
  st := 0
  fb := []
  diag := []
  display := []
  draws := 0

/-- The machine right after reset, with the default parameters (R5, R32, R240). -/
def State.reset : State := State.create Config.standard

end Sys2Proof.Machine
end

