-- ==== Sys2Proof/Machine/Ops.lean ====
section
/-! DEFINITION. The named operations over memory, registers, the stack and the ports; the advances; the fetch; and the one
error policy of the machine, the reject path (R210, R213). -/

namespace Sys2Proof.Machine

/-! ## Memory -/

/-- The byte at an address: the listed value, 0 where none is listed (R25, R62). Used only inside the range checks of R55. -/
def Memory.read : Memory → Nat → Byte
  | [], _ => 0
  | (k, b) :: m, a => if k = a then b else Memory.read m a

/-- The memory with nothing listed at `a`. -/
def Memory.erase (m : Memory) (a : Nat) : Memory := m.filter fun c => c.1 ≠ a

/-- The memory with the cell `(a, b)` put before the first cell of a higher address. -/
def Memory.insert : Memory → Nat → Byte → Memory
  | [], a, b => [(a, b)]
  | (k, c) :: m, a, b => if a < k then (a, b) :: (k, c) :: m else (k, c) :: Memory.insert m a b

/-- `MemWrite(a, 1, b)`: sets the byte at `a` and changes no other (R62), keeping the canonical form. -/
def Memory.write (m : Memory) (a : Nat) (b : Byte) : Memory :=
  if b = 0 then Memory.erase m a else Memory.insert (Memory.erase m a) a b

/-- Single-byte writes at consecutive addresses, in ascending order (R53). -/
def Memory.writeBytes (m : Memory) (a : Nat) : List Byte → Memory
  | [] => m
  | b :: bs => Memory.writeBytes (Memory.write m a b) (a + 1) bs

/-- The `n` bytes at `a`, `a + 1`, …, in ascending order (R53). -/
def Memory.readBytes (m : Memory) (a : Nat) : Nat → List Byte
  | 0 => []
  | n + 1 => Memory.read m a :: Memory.readBytes m (a + 1) n

/-- Every address is at least `lo`, the addresses rise strictly, and no value is 0. -/
def Memory.wfFrom (lo : Nat) : Memory → Bool
  | [] => true
  | (k, b) :: m => decide (lo ≤ k) && b != 0 && Memory.wfFrom (k + 1) m

/-- The canonical form: addresses strictly rising, no listed value equal to what an unlisted address reads as. -/
def Memory.wf (m : Memory) : Bool := Memory.wfFrom 0 m

/-- Every listed address lies below `size`. -/
def Memory.below (size : Nat) (m : Memory) : Bool := m.all fun c => decide (c.1 < size)

/-- `ram[a]`. -/
def State.ramByte (s : State) (a : Nat) : Byte := Memory.read s.ram a

/-- Pixel `p` of the framebuffer (R27). -/
def State.pixel (s : State) (p : Nat) : Byte := Memory.read s.fb p

/-- The state with another `ram`. -/
def State.setRam (s : State) (m : Memory) : State := { s with ram := m }

/-! ## Registers -/

/-- `V[x]` (R20). -/
def State.reg (s : State) (x : Reg) : Byte := s.v[x]

/-- `VF`, the flag register (R21). -/
abbrev regVF : Reg := 15

/-- `V[x] <- b` (R20: no register is hardwired). -/
def State.setReg (s : State) (x : Reg) (b : Byte) : State := { s with v := s.v.set x b }

/-- The register file with the bytes written to registers `k`, `k + 1`, … in ascending order (R183). -/
def loadRegs (v : Vector Byte 16) (k : Nat) : List Byte → Vector Byte 16
  | [] => v
  | b :: bs => loadRegs (v.setIfInBounds k b) (k + 1) bs

/-- `V[0]`, `V[1]`, … written from a list of bytes. -/
def State.setRegs (s : State) (bs : List Byte) : State := { s with v := loadRegs s.v 0 bs }

/-- `I <- w`. -/
def State.setIdx (s : State) (w : Word) : State := { s with idx := w }

/-- `pc <- w`. -/
def State.setCa (s : State) (w : Word) : State := { s with ca := w }

/-- `DT <- b`. -/
def State.setDt (s : State) (b : Byte) : State := { s with dt := b }

/-- `ST <- b`. -/
def State.setSt (s : State) (b : Byte) : State := { s with st := b }

/-! ## The call stack -/

/-- The next free entry, `stack[sp]`; none when `sp = 16` (R24, R133). -/
def State.freeEntry (s : State) : Option (Fin 16) :=
  if h : s.sp.val < 16 then some ⟨s.sp.val, h⟩ else none

/-- The topmost entry in use, `stack[sp - 1]`; none when `sp = 0` (R24, R131). -/
def State.topEntry (s : State) : Option (Fin 16) :=
  if s.sp.val = 0 then none else some ⟨s.sp.val - 1, by omega⟩

/-- `stack[k] <- w; sp <- k + 1` (R133). -/
def State.push (s : State) (k : Fin 16) (w : Word) : State := { s with stack := s.stack.set k w, sp := k.succ }

/-- `sp <- k`; the popped entry keeps its value (R24, R131). -/
def State.pop (s : State) (k : Fin 16) : State := { s with sp := k.castSucc }

/-! ## The ports -/

/-- Appends a record to the diagnostic output; nothing else changes (R29, R223). -/
def State.emitDiag (s : State) (r : DiagRecord) : State := { s with diag := s.diag ++ [r] }

/-- Sends an event on the display port (R221). -/
def State.emitDisplay (s : State) (e : DisplayEvent) : State := { s with display := s.display ++ [e] }

/-- `fb[p] <- 0` for every pixel `p` (R130, R220). -/
def State.clearFb (s : State) : State := { s with fb := [] }

/-- The byte the next call of `Rand()` delivers (R222). -/
def State.nextRandom (s : State) : Byte := Config.randByte s.draws

/-- One byte has been taken from the random-source port (R222). -/
def State.drawn (s : State) : State := { s with draws := s.draws + 1 }

/-! ## The advances of `ca` -/

/-- The default advance: `pc <- (ca + 2) mod 65536` (R23). -/
def advance (s : State) : State := s.setCa (s.ca + 2)

/-- The skip advance: `pc <- (ca + 4) mod 65536` (R23). -/
def skipNext (s : State) : State := s.setCa (s.ca + 4)

/-- The advance of a skip instruction: 4 where the condition holds, else 2 (R134, R135, R150, R151). -/
def advanceSkipIf (taken : Bool) (s : State) : State := if taken then skipNext s else advance s

/-! ## The error policy -/

/-- The code of a kind (R211). -/
def DiagKind.code : DiagKind → Nat
  | .illegal => 1
  | .notImplemented => 2
  | .jumpRange => 3
  | .endlessLoop => 4
  | .stackOverflow => 5
  | .stackUnderflow => 6
  | .memRange => 7
  | .fetchRange => 8

/-- The reject path, this hardware's "trap entry": nothing is saved, one record is appended, `ca` advances by 2, and none of the
instruction's effects happens (R210, R213). There is no return from it, because nothing is entered (R214). -/
def rejectWith (k : DiagKind) (bytes : Option (Byte × Byte)) (s : State) : State :=
  advance (s.emitDiag { kind := k, addr := s.ca, bytes := bytes })

/-- The reject path of a decoded instruction; its two bytes are its encoding, since an instruction determines its word. -/
def reject (k : DiagKind) (i : Instr) (s : State) : State := rejectWith k (some (encode i)) s

/-- The NOT_IMPLEMENTED handler (R116). -/
def notImplemented (i : Instr) (s : State) : State := reject .notImplemented i s

/-- The ILLEGAL handler, for a fetched word that matches no instruction (R115). -/
def illegalWord (byte0 byte1 : Byte) (s : State) : State := rejectWith .illegal (some (byte0, byte1)) s

/-- The fetch out of range: no byte is read and no instruction executes (R112). -/
def fetchOutOfRange (s : State) : State := rejectWith .fetchRange none s

/-! ## The fetch -/

/-- Both bytes of the instruction at `ca` exist (R55 (a), R112). -/
def State.fetchable (s : State) : Bool := decide (s.ca.toNat + 1 < s.cfg.memSize)

/-- The two bytes at `ca` and `ca + 1`, `byte0` first, as memory is at that moment (R51, R111); none out of range (R112). -/
def State.fetch (s : State) : Option (Byte × Byte) :=
  if s.fetchable then some (s.ramByte s.ca.toNat, s.ramByte (s.ca.toNat + 1)) else none

/-- The state with the two bytes of a word stored at `a`, the high byte at the lower address (R51). -/
def State.placeWord (s : State) (a : Word) (w : Word) : State :=
  s.setRam (Memory.writeBytes s.ram a.toNat [byteHi w, byteLo w])

end Sys2Proof.Machine
end

