-- ==== Sys2Proof/Machine/Operands.lean ====
section
/-! DEFINITION. The operand forms: the zero-extended address, the two jump targets with their guards, and the register block at `I`
(R84, R132, R136, R182, R183). Registers `V[x]` and bytes `kk` are read as they stand. -/

namespace Sys2Proof.Machine

/-- `zext_16(nnn)` (R84). -/
def zext16 (nnn : Imm12) : Word := nnn.setWidth 16

/-- The target of `JP nnn`, as an exact number (R132). -/
def targetNnn (nnn : Imm12) : Nat := nnn.toNat

/-- The target of `JP V0, nnn`: the exact sum `nnn + V[0]`, at most `0x10FE` (R136). -/
def targetV0Nnn (nnn : Imm12) (s : State) : Nat := nnn.toNat + (s.reg 0).toNat

/-- A jump with its two guards in the source's order: (a) the target is outside memory, (b) it is the jump's own address (R132, R136, R212). -/
def jumpTo (i : Instr) (target : Nat) (s : State) : State :=
  if s.cfg.memSize ≤ target then reject .jumpRange i s
  else if target = s.ca.toNat then reject .endlessLoop i s
  else s.setCa (BitVec.ofNat 16 target)

/-- The address of the block's first byte: `I`, as an exact number (R182, R183). -/
def blockBase (s : State) : Nat := s.idx.toNat

/-- Every address `I .. I + x` names a byte of memory; the sum is exact (R55 (b)). -/
def blockFits (x : Reg) (s : State) : Bool := decide (blockBase s + x.val < s.cfg.memSize)

/-- `V[0]..V[x]`, inclusive (R182). -/
def blockRegs (x : Reg) (s : State) : List Byte := s.v.toList.take (x.val + 1)

/-- `ram[I .. I + x]`, inclusive (R183). -/
def blockBytes (x : Reg) (s : State) : List Byte := Memory.readBytes s.ram (blockBase s) (x.val + 1)

end Sys2Proof.Machine
end

