-- ==== Sys2Proof/Machine/Flags.lean ====
section
/-! DEFINITION. The values written to `VF` as a flag, each computed from the operands captured before any write (R21, R160),
and the write order of the flag-writing operations. -/

namespace Sys2Proof.Machine

/-- A flag's value is exactly 0 or 1 (R160 (5)). -/
def flagByte (b : Bool) : Byte := if b then 1 else 0

/-- Carry out: the exact sum exceeds 255 (R165). -/
def carryOut (a b : Byte) : Byte := flagByte (decide (a.toNat + b.toNat > 255))

/-- Not-borrow out of `a - b`: 0 if `a < b`, else 1 (R166, R168). -/
def notBorrow (a b : Byte) : Byte := flagByte (!decide (a.toNat < b.toNat))

/-- The bit a right shift by one moves out: `a[0]` (R167). -/
def lowBitOut (a : Byte) : Byte := flagByte (a.getLsbD 0)

/-- The bit a left shift by one moves out: `a[7]` (R169). -/
def highBitOut (a : Byte) : Byte := flagByte (a.getLsbD 7)

/-- First `V[x] <- result`, then `V[0xF] <- flag`, then the default advance (R160 (2), (4)). -/
def writeResultThenFlag (x : Reg) (result flag : Byte) (s : State) : State :=
  advance ((s.setReg x result).setReg regVF flag)

/-- `VF` after `Fx1E` with the exact sum `sum`: 1 above the ceiling, else not written, or cleared where `FX1E_CLEARS_VF` holds (R181, D3). -/
def writeIndexFlag (sum : Nat) (s : State) : State :=
  if s.cfg.addrCeiling < sum then s.setReg regVF 1
  else if s.cfg.fx1eClearsVF then s.setReg regVF 0
  else s

end Sys2Proof.Machine
end

