-- ==== Sys2Proof/Machine/Alu.lean ====
section
/-! DEFINITION. The arithmetic/logic register group, class 8 (R160 to R169). Operands are captured first; results are exact numbers
reduced at the write (R8, R160). -/

namespace Sys2Proof.Machine

/-- LD Vx, Vy: `VF` unaffected (R161). -/
def execLdVxVy (x y : Reg) (s : State) : Result := .next (advance (s.setReg x (s.reg y)))

/-- OR Vx, Vy: `VF` unaffected (R162). -/
def execOrVxVy (x y : Reg) (s : State) : Result := .next (advance (s.setReg x (s.reg x ||| s.reg y)))

/-- AND Vx, Vy: `VF` unaffected (R163). -/
def execAndVxVy (x y : Reg) (s : State) : Result := .next (advance (s.setReg x (s.reg x &&& s.reg y)))

/-- XOR Vx, Vy: `VF` unaffected (R164). -/
def execXorVxVy (x y : Reg) (s : State) : Result := .next (advance (s.setReg x (s.reg x ^^^ s.reg y)))

/-- ADD Vx, Vy with carry out (R165). -/
def execAddVxVy (x y : Reg) (s : State) : Result :=
  let a := s.reg x
  let b := s.reg y
  .next (writeResultThenFlag x (BitVec.ofNat 8 (a.toNat + b.toNat)) (carryOut a b) s)

/-- SUB Vx, Vy with not-borrow out (R166). -/
def execSubVxVy (x y : Reg) (s : State) : Result :=
  let a := s.reg x
  let b := s.reg y
  .next (writeResultThenFlag x (BitVec.ofInt 8 ((a.toNat : Int) - (b.toNat : Int))) (notBorrow a b) s)

/-- SHR Vx: in place, `y` not used (R167, R89). -/
def execShrVx (x _y : Reg) (s : State) : Result :=
  let a := s.reg x
  .next (writeResultThenFlag x (a >>> 1) (lowBitOut a) s)

/-- SUBN Vx, Vy with not-borrow out (R168). -/
def execSubnVxVy (x y : Reg) (s : State) : Result :=
  let a := s.reg x
  let b := s.reg y
  .next (writeResultThenFlag x (BitVec.ofInt 8 ((b.toNat : Int) - (a.toNat : Int))) (notBorrow b a) s)

/-- SHL Vx: in place, `y` not used (R169, R89). -/
def execShlVx (x _y : Reg) (s : State) : Result :=
  let a := s.reg x
  .next (writeResultThenFlag x (a <<< 1) (highBitOut a) s)

end Sys2Proof.Machine
end

