-- ==== Sys2Proof/Machine/ControlFlow.lean ====
section
/-! DEFINITION. The control-flow group: 00E0, 00EE, 1nnn, 2nnn, 5xy0, 9xyn, Bnnn (R130 to R136). -/

namespace Sys2Proof.Machine

/-- CLS: zeroes every pixel, sends one `clear()` and no `update` (R130). -/
def execCls (s : State) : Result := .next (advance (s.clearFb.emitDisplay .clear))

/-- RET: rejected on an empty stack, else resumes two past the popped call address (R131). -/
def execRet (s : State) : Result :=
  match s.topEntry with
  | none => .next (reject .stackUnderflow .ret s)
  | some k => .next ((s.pop k).setCa (s.stack[k] + 2))

/-- JP nnn (R132). -/
def execJp (nnn : Imm12) (s : State) : Result := .next (jumpTo (.jp nnn) (targetNnn nnn) s)

/-- CALL nnn: rejected on a full stack, else pushes its own address and goes to `nnn`, unguarded (R133). -/
def execCall (nnn : Imm12) (s : State) : Result :=
  match s.freeEntry with
  | none => .next (reject .stackOverflow (.call nnn) s)
  | some k => .next ((s.push k s.ca).setCa (zext16 nnn))

/-- SE Vx, Vy (R134). -/
def execSeVxVy (x y : Reg) (s : State) : Result := .next (advanceSkipIf (s.reg x == s.reg y) s)

/-- SNE Vx, Vy; `n` is not examined (R135). -/
def execSneVxVy (x y : Reg) (_n : Nibble) (s : State) : Result := .next (advanceSkipIf (s.reg x != s.reg y) s)

/-- JP V0, nnn (R136). -/
def execJpV0Nnn (nnn : Imm12) (s : State) : Result := .next (jumpTo (.jpV0Nnn nnn) (targetV0Nnn nnn s) s)

end Sys2Proof.Machine
end

