-- ==== Sys2Proof/Machine/Deferred.lean ====
section
/-! DEFINITION. The six placeholders: Dxyn, Ex9E, ExA1, Fx0A, Fx29, Fx33. Each performs the NOT_IMPLEMENTED handler and uses none
of its operands (R190 to R196). -/

namespace Sys2Proof.Machine

/-- DRW Vx, Vy, n (R191). -/
def execDrwVxVyN (x y : Reg) (n : Nibble) (s : State) : Result := .next (notImplemented (.drwVxVyN x y n) s)

/-- SKP Vx (R192). -/
def execSkpVx (x : Reg) (s : State) : Result := .next (notImplemented (.skpVx x) s)

/-- SKNP Vx (R193). -/
def execSknpVx (x : Reg) (s : State) : Result := .next (notImplemented (.sknpVx x) s)

/-- LD Vx, K (R194). -/
def execLdVxK (x : Reg) (s : State) : Result := .next (notImplemented (.ldVxK x) s)

/-- LD F, Vx (R195). -/
def execLdFVx (x : Reg) (s : State) : Result := .next (notImplemented (.ldFVx x) s)

/-- LD B, Vx (R196). -/
def execLdBVx (x : Reg) (s : State) : Result := .next (notImplemented (.ldBVx x) s)

end Sys2Proof.Machine
end

