-- ==== Sys2Proof/Machine/Immediate.lean ====
section
/-! DEFINITION. The immediate/compare group: 3xkk, 4xkk, 6xkk, 7xkk (R150 to R153). -/

namespace Sys2Proof.Machine

/-- SE Vx, kk (R150). -/
def execSeVxKk (x : Reg) (kk : Byte) (s : State) : Result := .next (advanceSkipIf (s.reg x == kk) s)

/-- SNE Vx, kk (R151). -/
def execSneVxKk (x : Reg) (kk : Byte) (s : State) : Result := .next (advanceSkipIf (s.reg x != kk) s)

/-- LD Vx, kk (R152). -/
def execLdVxKk (x : Reg) (kk : Byte) (s : State) : Result := .next (advance (s.setReg x kk))

/-- ADD Vx, kk: modulo 256, no flag (R153). -/
def execAddVxKk (x : Reg) (kk : Byte) (s : State) : Result :=
  .next (advance (s.setReg x (BitVec.ofNat 8 ((s.reg x).toNat + kk.toNat))))

end Sys2Proof.Machine
end

