-- ==== Sys2Proof/Machine/MemoryIndirect.lean ====
section
/-! DEFINITION. The memory-indirection group: Annn, Fx1E, Fx55, Fx65 (R180 to R183). -/

namespace Sys2Proof.Machine

/-- LD I, nnn (R180). -/
def execLdINnn (nnn : Imm12) (s : State) : Result := .next (advance (s.setIdx (zext16 nnn)))

/-- ADD I, Vx: the exact sum is reduced modulo 65536 for `I` and tested against the ceiling for `VF` (R181). -/
def execAddIVx (x : Reg) (s : State) : Result :=
  let sum := s.idx.toNat + (s.reg x).toNat
  .next (advance (writeIndexFlag sum (s.setIdx (BitVec.ofNat 16 sum))))

/-- LD [I], Vx: the register dump; rejected whole where a target byte does not exist (R182). -/
def execLdMemIVx (x : Reg) (s : State) : Result :=
  if blockFits x s then .next (advance (s.setRam (Memory.writeBytes s.ram (blockBase s) (blockRegs x s))))
  else .next (reject .memRange (.ldMemIVx x) s)

/-- LD Vx, [I]: the register load; rejected whole where a source byte does not exist (R183). -/
def execLdVxMemI (x : Reg) (s : State) : Result :=
  if blockFits x s then .next (advance (s.setRegs (blockBytes x s)))
  else .next (reject .memRange (.ldVxMemI x) s)

end Sys2Proof.Machine
end

