-- ==== Sys2Proof/Machine/RandomTimers.lean ====
section
/-! DEFINITION. The random-masked load and the timer accesses: Cxkk, Fx07, Fx15, Fx18 (R200 to R203). -/

namespace Sys2Proof.Machine

/-- `V[x] <- r & kk` and the default advance, for the byte `r` the random-source port delivers (R200). -/
def loadMasked (r : Byte) (x : Reg) (kk : Byte) (s : State) : State := advance (s.setReg x (r &&& kk))

/-- RND Vx, kk: takes exactly one byte from the random-source port (R200, R222). -/
def execRndVxKk (x : Reg) (kk : Byte) (s : State) : Result := .next (loadMasked s.nextRandom x kk s.drawn)

/-- LD Vx, DT (R201). -/
def execLdVxDt (x : Reg) (s : State) : Result := .next (advance (s.setReg x s.dt))

/-- LD DT, Vx (R202). -/
def execLdDtVx (x : Reg) (s : State) : Result := .next (advance (s.setDt (s.reg x)))

/-- LD ST, Vx (R203). -/
def execLdStVx (x : Reg) (s : State) : Result := .next (advance (s.setSt (s.reg x)))

end Sys2Proof.Machine
end

