-- ==== Sys2Proof/Machine/Step.lean ====
section
/-! DEFINITION. The step operation (R110), and the placing of a word where the next step fetches. -/

namespace Sys2Proof.Machine

/-- One invocation of the step operation: fetch, decode, execute; an unfetchable `ca` and an ILLEGAL word take their handlers (R110). -/
def step (s : State) : Host.Outcome State Fault Refusal :=
  match s.fetch with
  | none => .next (fetchOutOfRange s)
  | some (byte0, byte1) =>
    match decode s.cfg byte0 byte1 with
    | .ok i => exec i s
    | .error _ => .next (illegalWord byte0 byte1 s)

/-- The state with a table word stored where the next step fetches: at `ca`, or, where the two bytes at `ca` do not exist, at
`PROG_BASE` with `ca` set to it (log entry 8). -/
def State.withFetchWord (s : State) (nbits w : Nat) : State :=
  if s.fetchable then s.placeWord s.ca (tableWord nbits w)
  else (s.placeWord (BitVec.ofNat 16 Config.progBase) (tableWord nbits w)).setCa (BitVec.ofNat 16 Config.progBase)

end Sys2Proof.Machine
end

