-- ==== Sys2Proof/Machine/HostMoves.lean ====
section
/-! DEFINITION. What the host may do between steps: the tick (R218), the program load (R220, R226), reset (R240), and any sequence of
moves, steps among them (R57, R224). -/

namespace Sys2Proof.Machine

/-- A timer after a tick: one less, stopping at 0 (R218). -/
def countDown (b : Byte) : Byte := if b = 0 then 0 else b - 1

/-- The tick: decrements both timers and changes nothing else (R218). -/
def tick (s : State) : State := (s.setDt (countDown s.dt)).setSt (countDown s.st)

/-- What the loader hands to the memory load port (R220, R226). -/
inductive LoadSource where
  /-- The source of the image cannot be read. -/
  | unreadable
  /-- The bytes of a program image. -/
  | image (bytes : List Byte)
  deriving DecidableEq, Repr

/-- The program-load errors, class (a) of the taxonomy (R226). -/
inductive LoadError where
  /-- The source is unreadable. -/
  | sourceUnreadable
  /-- The program is larger than the available space: "a size-exceeded condition" (R220). -/
  | sizeExceeded
  deriving DecidableEq, Repr

/-- An accepted load: copies the image to `0x200`, clears the framebuffer, then "clear, then paint blank state" (R220). -/
def loadImage (bytes : List Byte) (s : State) : State :=
  let t := (s.setRam (Memory.writeBytes s.ram Config.progBase bytes)).clearFb
  (t.emitDisplay .clear).emitDisplay (.update t.fb)

/-- `Load(image)`: fails without touching the state where the source is unreadable or the image exceeds `MAX_IMAGE` (R220, R226). -/
def load (src : LoadSource) (s : State) : Except LoadError State :=
  match src with
  | .unreadable => .error .sourceUnreadable
  | .image bytes => if s.cfg.maxImage < bytes.length then .error .sizeExceeded else .ok (loadImage bytes s)

/-- The host's moves (R224, D30). -/
inductive Move where
  /-- Creation of the machine anew, with the same parameters (R240); the random source outside goes on from where it was (log entry 14). -/
  | reset
  /-- A program load. -/
  | load (src : LoadSource)
  /-- One invocation of the step operation. -/
  | step
  /-- One tick. -/
  | tick
  deriving DecidableEq, Repr

/-- The state after one move; a failed load leaves it as it was (R226). -/
def applyMove (m : Move) (s : State) : Result :=
  match m with
  | .reset => .next { State.create s.cfg with draws := s.draws }
  | .load src => match load src s with
    | .ok t => .next t
    | .error _ => .next s
  | .step => step s
  | .tick => .next (tick s)

/-- A run: any sequence of whole steps, whole ticks and whole loads, in any order (R57, R218). -/
def runMoves : List Move → State → Result
  | [], s => .next s
  | m :: ms, s =>
    match applyMove m s with
    | .next t => runMoves ms t
    | .fault r => .fault r
    | .refused r => .refused r

end Sys2Proof.Machine
end

