-- ==== Sys2Proof/Safety.lean ====
section
/-! DEFINITION. The terms the claims are made in: the parts of the state and frames over them, the invariant of reachable states, the
diagnostic the spec's table calls for, and what counts as a safe run. -/

namespace Sys2Proof.Machine

/-! ## Frames -/

/-- A part of the state that an instruction may change or leave; the program counter is not one, each claim says where it goes. -/
inductive Part where
  /-- The parameters. -/
  | cfg
  /-- One general register. -/
  | reg (r : Reg)
  /-- The index register. -/
  | idx
  /-- The stack pointer. -/
  | sp
  /-- One stack entry. -/
  | entry (k : Fin 16)
  /-- One byte of memory. -/
  | byte (a : Nat)
  /-- The delay timer. -/
  | dt
  /-- The sound timer. -/
  | st
  /-- One pixel of the framebuffer. -/
  | pixel (p : Nat)
  /-- The diagnostic output. -/
  | diag
  /-- The display port's output. -/
  | display
  /-- The number of random bytes taken. -/
  | draws
  deriving DecidableEq, Repr

/-- The part reads the same in both states. -/
def Part.same (s t : State) : Part → Prop
  | .cfg => t.cfg = s.cfg
  | .reg r => t.reg r = s.reg r
  | .idx => t.idx = s.idx
  | .sp => t.sp = s.sp
  | .entry k => t.stack[k] = s.stack[k]
  | .byte a => t.ramByte a = s.ramByte a
  | .dt => t.dt = s.dt
  | .st => t.st = s.st
  | .pixel p => t.pixel p = s.pixel p
  | .diag => t.diag = s.diag
  | .display => t.display = s.display
  | .draws => t.draws = s.draws

/-- Every part outside `changed` is the same in `t` as in `s`. -/
def Frame (changed : Part → Prop) (s t : State) : Prop := ∀ p, ¬ changed p → p.same s t

/-- No part changes. -/
def noPart : Part → Prop := fun _ => False

/-- The parts of the state no program can observe: the two output traces, the framebuffer and the sound timer (R26, R27, R29, R31, R221). -/
def Part.isOutput : Part → Prop
  | .diag | .display | .st => True
  | .pixel _ => True
  | .cfg | .idx | .sp | .dt | .draws => False
  | .reg _ | .entry _ | .byte _ => False

/-- The states differ, if at all, in what no program can observe. -/
def AgreeForPrograms (s t : State) : Prop := t.ca = s.ca ∧ Frame Part.isOutput s t

/-! ## The invariant -/

/-- What holds at reset and after every move of the host: the parameters are in range (D1), `ram` is canonical and lists no address outside
memory (R25, R50), the framebuffer is all zero (R27), and every stack entry in use is an address an instruction was fetched from (R24, D23). -/
structure Inv (s : State) : Prop where
  cfgInRange : s.cfg.wf = true
  ramCanonical : Memory.wf s.ram = true
  ramInside : Memory.below s.cfg.memSize s.ram = true
  framebufferZero : s.fb = []
  callsFetchable : ∀ k : Fin 16, k.val < s.sp.val → s.stack[k].toNat + 1 < s.cfg.memSize

/-! ## Diagnostics -/

/-- The diagnostic of a jump to an exact target: range before self-jump (R211, R212). -/
def jumpDiagnostic (target : Nat) (s : State) : Option DiagKind :=
  if s.cfg.memSize ≤ target then some .jumpRange
  else if target = s.ca.toNat then some .endlessLoop
  else none

/-- The diagnostic of a block transfer (R211). -/
def blockDiagnostic (x : Reg) (s : State) : Option DiagKind :=
  if s.cfg.memSize ≤ s.idx.toNat + x.val then some .memRange else none

/-- The condition R211's table gives for each instruction; none where the table names no condition. -/
def instrDiagnostic (i : Instr) (s : State) : Option DiagKind :=
  match i with
  | .jp nnn => jumpDiagnostic nnn.toNat s
  | .jpV0Nnn nnn => jumpDiagnostic (nnn.toNat + (s.reg 0).toNat) s
  | .call _ => if s.sp.val = 16 then some .stackOverflow else none
  | .ret => if s.sp.val = 0 then some .stackUnderflow else none
  | .ldMemIVx x | .ldVxMemI x => blockDiagnostic x s
  | .drwVxVyN _ _ _ | .skpVx _ | .sknpVx _ | .ldVxK _ | .ldFVx _ | .ldBVx _ => some .notImplemented
  | .cls | .seVxKk _ _ | .sneVxKk _ _ | .seVxVy _ _ | .ldVxKk _ _ | .addVxKk _ _ | .ldVxVy _ _ | .orVxVy _ _ => none
  | .andVxVy _ _ | .xorVxVy _ _ | .addVxVy _ _ | .subVxVy _ _ | .shrVx _ _ | .subnVxVy _ _ | .shlVx _ _ => none
  | .sneVxVy _ _ _ | .ldINnn _ | .rndVxKk _ _ | .ldVxDt _ | .ldDtVx _ | .ldStVx _ | .addIVx _ => none

/-- The record the next step owes the diagnostic output, in the order of R212: fetch range, decode, the instruction's own check. -/
def diagnosticDue (s : State) : Option DiagRecord :=
  if s.cfg.memSize ≤ s.ca.toNat + 1 then some { kind := .fetchRange, addr := s.ca, bytes := none }
  else
    let byte0 := s.ramByte s.ca.toNat
    let byte1 := s.ramByte (s.ca.toNat + 1)
    let kind : Option DiagKind :=
      match decode s.cfg byte0 byte1 with
      | .error _ => some .illegal
      | .ok i => instrDiagnostic i s
    kind.map fun k => { kind := k, addr := s.ca, bytes := some (byte0, byte1) }

/-- The reject path was taken from `s` to `t`: `ca` advanced by 2, one record was appended, nothing else changed (R210, R213). -/
structure Rejected (k : DiagKind) (bytes : Option (Byte × Byte)) (s t : State) : Prop where
  caAdvanced : t.ca = s.ca + 2
  recordAppended : t.diag = s.diag ++ [{ kind := k, addr := s.ca, bytes := bytes }]
  nothingElse : Frame (fun p => p = .diag) s t

/-! ## Safe runs -/

/-- A run is safe when every one of its moves answers a next state and none of its steps takes the reject path, that is, appends to the
diagnostic output (R29, R210). Creating the machine anew empties that output. -/
def SafeRun : List Move → State → Prop
  | [], _ => True
  | m :: ms, s => ∃ t, applyMove m s = .next t ∧ (m = .reset ∨ t.diag = s.diag) ∧ SafeRun ms t

end Sys2Proof.Machine
end

