-- ==== Sys2Proof/Certificates/Slice0/Obligations.lean ====
section
/-! DEFINITION. The statements of this row. Each is about every state, under no invariant unless it names one; a clause that rests on one of the
spec's own marked decisions (92_eei_decisions.md) or general-knowledge passages (93_implementation_defined.md) says so in its docstring. -/

open Sys2Proof Sys2Proof.Machine

/-! ## Encoding -/

/-- R81, R82: the word is `byte0 * 256 + byte1`; each field is the slice of it that R82's table gives; `nnn = x ## kk`, `kk = y ## n`. -/
def Obligations.FetchedBytesFormWordAndFields : Prop :=
  ∀ byte0 byte1 : Byte,
    let w := wordOf byte0 byte1
    w.toNat = byte0.toNat * 256 + byte1.toNat ∧
    (fieldClass w).toNat = byte0.toNat / 16 ∧ (fieldX w).val = byte0.toNat % 16 ∧
    (fieldY w).val = byte1.toNat / 16 ∧ (fieldN w).toNat = byte1.toNat % 16 ∧ (fieldKk w).toNat = byte1.toNat ∧
    (fieldNnn w).toNat = byte0.toNat % 16 * 256 + byte1.toNat ∧
    (fieldNnn w).toNat = (fieldX w).val * 256 + (fieldKk w).toNat ∧
    (fieldKk w).toNat = (fieldY w).val * 16 + (fieldN w).toNat

/-- R93's worked decode examples (derived by the spec from R81, R82, R84). -/
def Obligations.WorkedDecodeExamples : Prop :=
  decode Config.standard 0x12 0x04 = .ok (.jp 0x204) ∧
  decode Config.standard 0x8A 0xB4 = .ok (.addVxVy 0xA 0xB) ∧
  decode Config.standard 0xCC 0x00 = .ok (.rndVxKk 0xC 0x00) ∧
  decode Config.standard 0xF3 0x65 = .ok (.ldVxMemI 3) ∧
  decode Config.standard 0x00 0x00 = .error .illegalClass0 ∧
  decode Config.standard 0x5A 0xB1 = .error .illegalClass5 ∧
  decode Config.standard 0x9A 0xB1 = .ok (.sneVxVy 0xA 0xB 1)

/-- For every well-formed instruction, with every operand value, decoding its two bytes gives it back. -/
def Obligations.DecodeOfEncodeIsIdentity : Prop :=
  ∀ (c : Config) (i : Instr), i.wellFormed c = true → decode c (encode i).1 (encode i).2 = .ok i

/-- Whatever two bytes decode to an instruction, that instruction is well formed and its bytes are those two: no bit of a word is dropped. -/
def Obligations.EncodeOfDecodeIsIdentity : Prop :=
  ∀ (c : Config) (byte0 byte1 : Byte) (i : Instr),
    decode c byte0 byte1 = .ok i → i.wellFormed c = true ∧ encode i = (byte0, byte1)

/-- R86's opcode map and the decode tree of R85 agree: a word decodes to an instruction of a row exactly when it selects the row; the map has 34
rows and no word selects two. The rows 21, 26, 28, 29 rest on D12 and D14. -/
def Obligations.DecoderFollowsOpcodeMap : Prop :=
  opcodeMap.length = 34 ∧
  (∀ (w : Word) (i : Instr), decodeWord Config.standard w = .ok i → i.row ∈ opcodeMap ∧ i.row.selects w = true) ∧
  (∀ (w : Word) (r : OpcodeRow), r ∈ opcodeMap → r.selects w = true → ∃ i, decodeWord Config.standard w = .ok i ∧ i.row = r) ∧
  (∀ (w : Word) (r r' : OpcodeRow), r ∈ opcodeMap → r' ∈ opcodeMap → r.selects w = true → r'.selects w = true → r = r')

/-- The ILLEGAL words are exactly those of R87's table (class 0 by D11), each rejected under its class's name. -/
def Obligations.IllegalWordsAreTheListedOnes : Prop :=
  ∀ w : Word,
    (decodeWord Config.standard w = .error .illegalClass0 ↔ fieldClass w = 0x0 ∧ w ≠ 0x00E0 ∧ w ≠ 0x00EE) ∧
    (decodeWord Config.standard w = .error .illegalClass5 ↔ fieldClass w = 0x5 ∧ fieldN w ≠ 0) ∧
    (decodeWord Config.standard w = .error .illegalClass8 ↔
      fieldClass w = 0x8 ∧ fieldN w ∈ [0x8, 0x9, 0xA, 0xB, 0xC, 0xD, 0xF]) ∧
    (decodeWord Config.standard w = .error .illegalClassE ↔ fieldClass w = 0xE ∧ fieldKk w ∉ [0x9E, 0xA1]) ∧
    (decodeWord Config.standard w = .error .illegalClassF ↔
      fieldClass w = 0xF ∧ fieldKk w ∉ [0x07, 0x0A, 0x15, 0x18, 0x1E, 0x29, 0x33, 0x55, 0x65]) ∧
    decodeWord Config.standard w ≠ .error .illegalClass9

/-- R90's counts over all 65536 words, by their two bytes (derived by the spec from R85 to R88): 43618 execute, 4176 are placeholders, 17742 are ILLEGAL. -/
def Obligations.WordClassificationCounts : Prop :=
  let count := fun k =>
    ((List.range 256).map fun byte0 =>
      (List.range 256).countP fun byte1 =>
        classify Config.standard (wordOf (BitVec.ofNat 8 byte0) (BitVec.ofNat 8 byte1)) == k).sum
  count .exec = 43618 ∧ count .notImplemented = 4176 ∧ count .illegal = 17742

/-! ## The step -/

/-- When both bytes at `ca` exist and decode to an instruction, the step is that instruction's execution on the very same state: nothing is added
around it (40_dispatch.md, "The step operation"). -/
def Obligations.StepRunsDecodedInstruction : Prop :=
  ∀ (s : State) (i : Instr),
    s.ca.toNat + 1 < s.cfg.memSize →
    decode s.cfg (s.ramByte s.ca.toNat) (s.ramByte (s.ca.toNat + 1)) = .ok i →
    step s = exec i s

/-- R115: a fetched word that matches no instruction is absorbed: one ILLEGAL record with the fetched bytes, `ca + 2`, nothing else. -/
def Obligations.IllegalWordIsSkipped : Prop :=
  ∀ (s : State) (e : DecodeReject),
    s.ca.toNat + 1 < s.cfg.memSize →
    decode s.cfg (s.ramByte s.ca.toNat) (s.ramByte (s.ca.toNat + 1)) = .error e →
    ∃ t, step s = .next t ∧
      Rejected .illegal (some (s.ramByte s.ca.toNat, s.ramByte (s.ca.toNat + 1))) s t

/-- R170: the seven other trailing nibbles of class 8 are ILLEGAL and advance by 2, no register changed. -/
def Obligations.IllegalAluSubOperations : Prop :=
  ∀ (s : State) (x y : Reg) (n : Nibble),
    n ∈ [0x8, 0x9, 0xA, 0xB, 0xC, 0xD, 0xF] →
    s.ca.toNat + 1 < s.cfg.memSize →
    s.ramByte s.ca.toNat = 0x8#4 ++ regBits x →
    s.ramByte (s.ca.toNat + 1) = regBits y ++ n →
    ∃ t, step s = .next t ∧ Rejected .illegal (some (0x8#4 ++ regBits x, regBits y ++ n)) s t

/-- The fetch out of range: no byte is read, one record without bytes, `ca + 2` modulo 65536 (the spec's own decisions D8, D9). -/
def Obligations.FetchOutOfRangeAdvances : Prop :=
  ∀ s : State, s.cfg.memSize ≤ s.ca.toNat + 1 → ∃ t, step s = .next t ∧ Rejected .fetchRange none s t

/-- R243: the step operation is enabled in every state; so is every instruction. -/
def Obligations.EveryStepAndInstructionCompletes : Prop :=
  (∀ s : State, ∃ t, step s = .next t) ∧ ∀ (i : Instr) (s : State), ∃ t, exec i s = .next t

/-- After every step `ca` or `sp` differs from its value before (the spec's derived reading of the forward-progress invariant, C11). -/
def Obligations.EveryStepMakesProgress : Prop :=
  ∀ s t : State, step s = .next t → t.ca ≠ s.ca ∨ t.sp ≠ s.sp

/-- Instructions that are no jump, call or return advance by 2, or by 4 where a skip instruction's condition holds, modulo 65536 (D9 for the modulus). -/
def Obligations.NonJumpsAdvanceByTwoOrFour : Prop :=
  ∀ (i : Instr) (s t : State), exec i s = .next t →
    (t.ca = s.ca + 2) ∨
    (t.ca = s.ca + 4 ∧
      ((∃ x kk, i = .seVxKk x kk ∧ s.reg x = kk) ∨ (∃ x kk, i = .sneVxKk x kk ∧ s.reg x ≠ kk) ∨
       (∃ x y, i = .seVxVy x y ∧ s.reg x = s.reg y) ∨ (∃ x y n, i = .sneVxVy x y n ∧ s.reg x ≠ s.reg y))) ∨
    (∃ nnn, i = .jp nnn ∨ i = .jpV0Nnn nnn ∨ i = .call nnn) ∨ i = .ret

/-! ## Diagnostics -/

/-- The table of diagnostic kinds and the order of checks: a step appends exactly the record that is due, with `ca` at the fetch and the two bytes
read there; where none is due it appends nothing (kinds, record and priority are the spec's own decisions D5 to D8, D12, D17, D26). -/
def Obligations.StepAppendsExactlyTheDueDiagnostic : Prop :=
  ∀ s t : State, step s = .next t → t.diag = s.diag ++ (diagnosticDue s).toList

/-- Where a diagnostic is due, the step advances `ca` by 2 and changes nothing but the diagnostic output: none of the instruction's
effects happens (the conditions are those of the spec's own decisions D5 to D8, D12, D26). -/
def Obligations.RejectedStepHasNoOtherEffect : Prop :=
  ∀ (s t : State) (r : DiagRecord), diagnosticDue s = some r → step s = .next t → Rejected r.kind r.bytes s t

/-- A run is safe exactly when no diagnostic is due at any of its steps: for a run that begins with a step. -/
def Obligations.SafeRunMeansNoDiagnosticDue : Prop :=
  ∀ (ms : List Move) (s : State),
    SafeRun (.step :: ms) s ↔ diagnosticDue s = none ∧ ∃ t, step s = .next t ∧ SafeRun ms t

/-- The output traces are append-only: over any run without a reset, what was emitted stays, in order (the diagnostic output by the
spec's own decision D17; the display trace is the model's own field, log entry 4). -/
def Obligations.OutputTracesOnlyGrow : Prop :=
  ∀ (ms : List Move) (s t : State), Move.reset ∉ ms → runMoves ms s = .next t →
    (∃ d, t.diag = s.diag ++ d) ∧ ∃ e, t.display = s.display ++ e

/-! ## Control flow -/

/-- CLS: every pixel is 0 afterwards, one `clear()` event is sent and no `update` (the spec's own decision D16), `ca + 2`. -/
def Obligations.ClsClearsAndSendsOneClear : Prop :=
  ∀ s : State,
    decodeWord s.cfg 0x00E0 = .ok .cls ∧
    ∃ t, exec .cls s = .next t ∧ t.ca = s.ca + 2 ∧ (∀ p, t.pixel p = 0) ∧ t.display = s.display ++ [.clear] ∧
      Frame (fun p => p = .display ∨ ∃ q, p = .pixel q) s t

/-- RET: with an entry in use, pops it and resumes two past the address it holds; with none, it is rejected (the spec's own decision D6). -/
def Obligations.RetResumesAfterCallSite : Prop :=
  ∀ s : State,
    decodeWord s.cfg 0x00EE = .ok .ret ∧
    ∃ t, exec .ret s = .next t ∧
      (s.sp.val = 0 → Rejected .stackUnderflow (some (0x00, 0xEE)) s t) ∧
      (∀ k : Fin 16, s.sp.val = k.val + 1 →
        t.sp.val = k.val ∧ t.ca = s.stack[k] + 2 ∧ Frame (fun p => p = .sp) s t)

/-- R132: JP nnn, with guard (a) range, guard (b) self-jump, else the jump. -/
def Obligations.JpGuardsAndTarget : Prop :=
  ∀ (nnn : Imm12) (s : State),
    decodeWord s.cfg (0x1#4 ++ nnn) = .ok (.jp nnn) ∧
    ∃ t, exec (.jp nnn) s = .next t ∧
      (s.cfg.memSize ≤ nnn.toNat →
        Rejected .jumpRange (some (0x1#4 ++ nnn.extractLsb' 8 4, nnn.extractLsb' 0 8)) s t) ∧
      (nnn.toNat < s.cfg.memSize → nnn.toNat = s.ca.toNat →
        Rejected .endlessLoop (some (0x1#4 ++ nnn.extractLsb' 8 4, nnn.extractLsb' 0 8)) s t) ∧
      (nnn.toNat < s.cfg.memSize → nnn.toNat ≠ s.ca.toNat → t.ca.toNat = nnn.toNat ∧ Frame noPart s t)

/-- CALL nnn: with a free entry, pushes the CALL's own address and goes to `nnn` with no target guard (D22); with none, it is rejected (the spec's own
decision D5). -/
def Obligations.CallPushesOwnAddress : Prop :=
  ∀ (nnn : Imm12) (s : State),
    decodeWord s.cfg (0x2#4 ++ nnn) = .ok (.call nnn) ∧
    ∃ t, exec (.call nnn) s = .next t ∧
      (s.sp.val = 16 → Rejected .stackOverflow (some (0x2#4 ++ nnn.extractLsb' 8 4, nnn.extractLsb' 0 8)) s t) ∧
      (∀ k : Fin 16, s.sp.val = k.val →
        t.stack[k] = s.ca ∧ t.sp.val = k.val + 1 ∧ t.ca.toNat = nnn.toNat ∧
        Frame (fun p => p = .sp ∨ p = .entry k) s t)

/-- R134: SE Vx, Vy skips 4 when equal and 2 otherwise; with another trailing nibble the word is no instruction. -/
def Obligations.SeVxVySkipsWhenEqual : Prop :=
  ∀ (x y : Reg) (s : State),
    decodeWord s.cfg (0x5#4 ++ (regBits x ++ (regBits y ++ 0x0#4))) = .ok (.seVxVy x y) ∧
    (∀ n : Nibble, n ≠ 0 → decodeWord s.cfg (0x5#4 ++ (regBits x ++ (regBits y ++ n))) = .error .illegalClass5) ∧
    ∃ t, exec (.seVxVy x y) s = .next t ∧
      (s.reg x = s.reg y → t.ca = s.ca + 4) ∧ (s.reg x ≠ s.reg y → t.ca = s.ca + 2) ∧ Frame noPart s t

/-- SNE Vx, Vy skips 4 when different and 2 otherwise; the trailing nibble is not examined, unless the parameter says so (the spec's own decision D10). -/
def Obligations.SneVxVySkipsWhenDifferent : Prop :=
  ∀ (x y : Reg) (n : Nibble) (s : State),
    (s.cfg.class9ChecksN = false ∨ n = 0 →
      decodeWord s.cfg (0x9#4 ++ (regBits x ++ (regBits y ++ n))) = .ok (.sneVxVy x y n)) ∧
    (s.cfg.class9ChecksN = true → n ≠ 0 →
      decodeWord s.cfg (0x9#4 ++ (regBits x ++ (regBits y ++ n))) = .error .illegalClass9) ∧
    ∃ t, exec (.sneVxVy x y n) s = .next t ∧
      (s.reg x ≠ s.reg y → t.ca = s.ca + 4) ∧ (s.reg x = s.reg y → t.ca = s.ca + 2) ∧ Frame noPart s t

/-- JP V0, nnn goes to the exact sum `nnn + V[0]` under the same two guards (the spec's own decision D12, general knowledge G2; log entry 10). -/
def Obligations.JpV0GuardsAndTarget : Prop :=
  ∀ (nnn : Imm12) (s : State),
    let target := nnn.toNat + (s.reg 0).toNat
    decodeWord s.cfg (0xB#4 ++ nnn) = .ok (.jpV0Nnn nnn) ∧
    ∃ t, exec (.jpV0Nnn nnn) s = .next t ∧
      (s.cfg.memSize ≤ target →
        Rejected .jumpRange (some (0xB#4 ++ nnn.extractLsb' 8 4, nnn.extractLsb' 0 8)) s t) ∧
      (target < s.cfg.memSize → target = s.ca.toNat →
        Rejected .endlessLoop (some (0xB#4 ++ nnn.extractLsb' 8 4, nnn.extractLsb' 0 8)) s t) ∧
      (target < s.cfg.memSize → target ≠ s.ca.toNat → t.ca.toNat = target ∧ Frame noPart s t)

/-- A CALL whose target holds RET, both stepped: `ca` is the call site plus 2, `sp` is as before, the one entry written holds the call site, nothing
else changed (the spec's derived precise form of its testable property). -/
def Obligations.CallThenRetRestores : Prop :=
  ∀ (nnn : Imm12) (k : Fin 16) (s : State),
    s.sp.val = k.val →
    s.ca.toNat + 1 < s.cfg.memSize →
    s.ramByte s.ca.toNat = 0x2#4 ++ nnn.extractLsb' 8 4 →
    s.ramByte (s.ca.toNat + 1) = nnn.extractLsb' 0 8 →
    nnn.toNat + 1 < s.cfg.memSize →
    s.ramByte nnn.toNat = 0x00 →
    s.ramByte (nnn.toNat + 1) = 0xEE →
    ∃ t u, step s = .next t ∧ step t = .next u ∧
      u.ca = s.ca + 2 ∧ u.sp = s.sp ∧ u.stack[k] = s.ca ∧ Frame (fun p => p = .entry k) s u

/-! ## Immediate and compare -/

/-- R150: SE Vx, kk. -/
def Obligations.SeVxKkSkipsWhenEqual : Prop :=
  ∀ (x : Reg) (kk : Byte) (s : State),
    decodeWord s.cfg (0x3#4 ++ (regBits x ++ kk)) = .ok (.seVxKk x kk) ∧
    ∃ t, exec (.seVxKk x kk) s = .next t ∧
      (s.reg x = kk → t.ca = s.ca + 4) ∧ (s.reg x ≠ kk → t.ca = s.ca + 2) ∧ Frame noPart s t

/-- R151: SNE Vx, kk. -/
def Obligations.SneVxKkSkipsWhenDifferent : Prop :=
  ∀ (x : Reg) (kk : Byte) (s : State),
    decodeWord s.cfg (0x4#4 ++ (regBits x ++ kk)) = .ok (.sneVxKk x kk) ∧
    ∃ t, exec (.sneVxKk x kk) s = .next t ∧
      (s.reg x ≠ kk → t.ca = s.ca + 4) ∧ (s.reg x = kk → t.ca = s.ca + 2) ∧ Frame noPart s t

/-- R152: LD Vx, kk; with `x = 0xF` it writes `VF` as data. -/
def Obligations.LdVxKkLoadsImmediate : Prop :=
  ∀ (x : Reg) (kk : Byte) (s : State),
    decodeWord s.cfg (0x6#4 ++ (regBits x ++ kk)) = .ok (.ldVxKk x kk) ∧
    ∃ t, exec (.ldVxKk x kk) s = .next t ∧ t.ca = s.ca + 2 ∧ t.reg x = kk ∧ Frame (fun p => p = .reg x) s t

/-- R153: ADD Vx, kk wraps modulo 256 and writes no flag: every register but `V[x]` is as before, `VF` too. -/
def Obligations.AddVxKkWrapsWithoutFlag : Prop :=
  ∀ (x : Reg) (kk : Byte) (s : State),
    decodeWord s.cfg (0x7#4 ++ (regBits x ++ kk)) = .ok (.addVxKk x kk) ∧
    ∃ t, exec (.addVxKk x kk) s = .next t ∧ t.ca = s.ca + 2 ∧
      (t.reg x).toNat = ((s.reg x).toNat + kk.toNat) % 256 ∧ Frame (fun p => p = .reg x) s t

/-! ## Arithmetic and logic -/

/-- R161 to R164: copy, or, and, exclusive or; `VF` is unaffected unless it is `V[x]`. -/
def Obligations.CopyAndLogicLeaveFlag : Prop :=
  ∀ (x y : Reg) (s : State),
    (decodeWord s.cfg (0x8#4 ++ (regBits x ++ (regBits y ++ 0x0#4))) = .ok (.ldVxVy x y) ∧
      ∃ t, exec (.ldVxVy x y) s = .next t ∧ t.ca = s.ca + 2 ∧ t.reg x = s.reg y ∧ Frame (fun p => p = .reg x) s t) ∧
    (decodeWord s.cfg (0x8#4 ++ (regBits x ++ (regBits y ++ 0x1#4))) = .ok (.orVxVy x y) ∧
      ∃ t, exec (.orVxVy x y) s = .next t ∧ t.ca = s.ca + 2 ∧ t.reg x = (s.reg x ||| s.reg y) ∧ Frame (fun p => p = .reg x) s t) ∧
    (decodeWord s.cfg (0x8#4 ++ (regBits x ++ (regBits y ++ 0x2#4))) = .ok (.andVxVy x y) ∧
      ∃ t, exec (.andVxVy x y) s = .next t ∧ t.ca = s.ca + 2 ∧ t.reg x = (s.reg x &&& s.reg y) ∧ Frame (fun p => p = .reg x) s t) ∧
    (decodeWord s.cfg (0x8#4 ++ (regBits x ++ (regBits y ++ 0x3#4))) = .ok (.xorVxVy x y) ∧
      ∃ t, exec (.xorVxVy x y) s = .next t ∧ t.ca = s.ca + 2 ∧ t.reg x = (s.reg x ^^^ s.reg y) ∧ Frame (fun p => p = .reg x) s t)

/-- R165: ADD Vx, Vy; the flag stands last, so with `x = 0xF` the sum is lost. -/
def Obligations.AddVxVySumAndCarry : Prop :=
  ∀ (x y : Reg) (s : State),
    let a := (s.reg x).toNat
    let b := (s.reg y).toNat
    decodeWord s.cfg (0x8#4 ++ (regBits x ++ (regBits y ++ 0x4#4))) = .ok (.addVxVy x y) ∧
    ∃ t, exec (.addVxVy x y) s = .next t ∧ t.ca = s.ca + 2 ∧
      (x ≠ 0xF → (t.reg x).toNat = (a + b) % 256) ∧
      (t.reg 0xF).toNat = (if a + b > 255 then 1 else 0) ∧
      Frame (fun p => p = .reg x ∨ p = .reg 0xF) s t

/-- R166: SUB Vx, Vy; `VF` is 0 on borrow, else 1, and stands last. -/
def Obligations.SubVxVyDifferenceAndNotBorrow : Prop :=
  ∀ (x y : Reg) (s : State),
    let a := (s.reg x).toNat
    let b := (s.reg y).toNat
    decodeWord s.cfg (0x8#4 ++ (regBits x ++ (regBits y ++ 0x5#4))) = .ok (.subVxVy x y) ∧
    ∃ t, exec (.subVxVy x y) s = .next t ∧ t.ca = s.ca + 2 ∧
      (x ≠ 0xF → (t.reg x).toNat = if a < b then a + 256 - b else a - b) ∧
      (t.reg 0xF).toNat = (if a < b then 0 else 1) ∧
      Frame (fun p => p = .reg x ∨ p = .reg 0xF) s t

/-- R167: SHR Vx, in place, `y` not used; `VF` is the low bit of the old `V[x]`. -/
def Obligations.ShrVxHalvesAndLowBit : Prop :=
  ∀ (x y : Reg) (s : State),
    decodeWord s.cfg (0x8#4 ++ (regBits x ++ (regBits y ++ 0x6#4))) = .ok (.shrVx x y) ∧
    ∃ t, exec (.shrVx x y) s = .next t ∧ t.ca = s.ca + 2 ∧
      (x ≠ 0xF → (t.reg x).toNat = (s.reg x).toNat / 2) ∧
      (t.reg 0xF).toNat = (s.reg x).toNat % 2 ∧
      Frame (fun p => p = .reg x ∨ p = .reg 0xF) s t

/-- R168: SUBN Vx, Vy; `VF` is 0 if `V[y] < V[x]`, else 1, and stands last. -/
def Obligations.SubnVxVyDifferenceAndNotBorrow : Prop :=
  ∀ (x y : Reg) (s : State),
    let a := (s.reg x).toNat
    let b := (s.reg y).toNat
    decodeWord s.cfg (0x8#4 ++ (regBits x ++ (regBits y ++ 0x7#4))) = .ok (.subnVxVy x y) ∧
    ∃ t, exec (.subnVxVy x y) s = .next t ∧ t.ca = s.ca + 2 ∧
      (x ≠ 0xF → (t.reg x).toNat = if b < a then b + 256 - a else b - a) ∧
      (t.reg 0xF).toNat = (if b < a then 0 else 1) ∧
      Frame (fun p => p = .reg x ∨ p = .reg 0xF) s t

/-- R169: SHL Vx, in place, `y` not used; `VF` is the high bit of the old `V[x]`. -/
def Obligations.ShlVxDoublesAndHighBit : Prop :=
  ∀ (x y : Reg) (s : State),
    decodeWord s.cfg (0x8#4 ++ (regBits x ++ (regBits y ++ 0xE#4))) = .ok (.shlVx x y) ∧
    ∃ t, exec (.shlVx x y) s = .next t ∧ t.ca = s.ca + 2 ∧
      (x ≠ 0xF → (t.reg x).toNat = (s.reg x).toNat * 2 % 256) ∧
      (t.reg 0xF).toNat = (s.reg x).toNat / 128 ∧
      Frame (fun p => p = .reg x ∨ p = .reg 0xF) s t

/-! ## Index and memory -/

/-- R180: LD I, nnn. -/
def Obligations.LdINnnSetsIndex : Prop :=
  ∀ (nnn : Imm12) (s : State),
    decodeWord s.cfg (0xA#4 ++ nnn) = .ok (.ldINnn nnn) ∧
    ∃ t, exec (.ldINnn nnn) s = .next t ∧ t.ca = s.ca + 2 ∧ t.idx.toNat = nnn.toNat ∧ Frame (fun p => p = .idx) s t

/-- ADD I, Vx: the exact sum modulo 65536 goes to `I`, `VF` becomes 1 above the ceiling and is otherwise not written, or cleared where the parameter
says so (the spec's own decisions D2, D3, D4). -/
def Obligations.AddIVxSumAndCeilingFlag : Prop :=
  ∀ (x : Reg) (s : State),
    let sum := s.idx.toNat + (s.reg x).toNat
    decodeWord s.cfg (0xF#4 ++ (regBits x ++ 0x1E#8)) = .ok (.addIVx x) ∧
    ∃ t, exec (.addIVx x) s = .next t ∧ t.ca = s.ca + 2 ∧ t.idx.toNat = sum % 65536 ∧
      (s.cfg.addrCeiling < sum → t.reg 0xF = 1) ∧
      (sum ≤ s.cfg.addrCeiling → s.cfg.fx1eClearsVF = true → t.reg 0xF = 0) ∧
      (sum ≤ s.cfg.addrCeiling → s.cfg.fx1eClearsVF = false → t.reg 0xF = s.reg 0xF) ∧
      Frame (fun p => p = .idx ∨ p = .reg 0xF) s t

/-- LD [I], Vx: stores `V[0]..V[x]` at `I .. I + x` and changes no other byte and nothing else, `I` included; rejected whole where a target byte does not
exist (the spec's own decision D7). -/
def Obligations.LdMemIVxDumpsRegisters : Prop :=
  ∀ (x : Reg) (s : State),
    decodeWord s.cfg (0xF#4 ++ (regBits x ++ 0x55#8)) = .ok (.ldMemIVx x) ∧
    ∃ t, exec (.ldMemIVx x) s = .next t ∧
      (s.cfg.memSize ≤ s.idx.toNat + x.val → Rejected .memRange (some (0xF#4 ++ regBits x, 0x55)) s t) ∧
      (s.idx.toNat + x.val < s.cfg.memSize →
        t.ca = s.ca + 2 ∧ (∀ k : Reg, k ≤ x → t.ramByte (s.idx.toNat + k.val) = s.reg k) ∧
        Frame (fun p => ∃ k : Reg, k ≤ x ∧ p = .byte (s.idx.toNat + k.val)) s t)

/-- LD Vx, [I]: loads `ram[I .. I + x]` into `V[0]..V[x]` and changes nothing else; rejected whole where a source byte does not exist (the spec's own
decision D7). -/
def Obligations.LdVxMemILoadsRegisters : Prop :=
  ∀ (x : Reg) (s : State),
    decodeWord s.cfg (0xF#4 ++ (regBits x ++ 0x65#8)) = .ok (.ldVxMemI x) ∧
    ∃ t, exec (.ldVxMemI x) s = .next t ∧
      (s.cfg.memSize ≤ s.idx.toNat + x.val → Rejected .memRange (some (0xF#4 ++ regBits x, 0x65)) s t) ∧
      (s.idx.toNat + x.val < s.cfg.memSize →
        t.ca = s.ca + 2 ∧ (∀ k : Reg, k ≤ x → t.reg k = s.ramByte (s.idx.toNat + k.val)) ∧
        Frame (fun p => ∃ k : Reg, k ≤ x ∧ p = .reg k) s t)

/-- A store is seen by the very next fetch: after a step of LD [I], Vx that stores over the two following bytes, the next fetch reads `V[0]`, `V[1]`
(the spec's derived statement that self-modifying code takes effect at once). -/
def Obligations.StoreIsSeenByNextFetch : Prop :=
  ∀ (x : Reg) (s : State),
    s.ca.toNat + 3 < s.cfg.memSize →
    s.cfg.memSize ≤ 0x1000 →
    s.ramByte s.ca.toNat = 0xF#4 ++ regBits x →
    s.ramByte (s.ca.toNat + 1) = 0x55 →
    s.idx = s.ca + 2 →
    1 ≤ x.val →
    s.idx.toNat + x.val < s.cfg.memSize →
    ∃ t, step s = .next t ∧ t.fetch = some (s.reg 0, s.reg 1)

/-! ## Placeholders, random byte, timers -/

/-- R116, R190 to R196: each placeholder word decodes to its own instruction, whose execution appends one NOT_IMPLEMENTED record with the word's bytes,
advances by 2, and does nothing else. -/
def Obligations.PlaceholdersOnlyLogAndAdvance : Prop :=
  ∀ (x y : Reg) (n : Nibble) (s : State) (w : Word) (i : Instr),
    (w, i) ∈ [(0xD#4 ++ (regBits x ++ (regBits y ++ n)), Instr.drwVxVyN x y n),
      (0xE#4 ++ (regBits x ++ 0x9E#8), Instr.skpVx x), (0xE#4 ++ (regBits x ++ 0xA1#8), Instr.sknpVx x),
      (0xF#4 ++ (regBits x ++ 0x0A#8), Instr.ldVxK x), (0xF#4 ++ (regBits x ++ 0x29#8), Instr.ldFVx x),
      (0xF#4 ++ (regBits x ++ 0x33#8), Instr.ldBVx x)] →
    decodeWord s.cfg w = .ok i ∧
    ∃ t, exec i s = .next t ∧ Rejected .notImplemented (some (w.extractLsb' 8 8, w.extractLsb' 0 8)) s t

/-- RND Vx, kk: the byte the random-source port delivers at this draw, whatever it is, masked with `kk`; exactly one byte is taken (the AND is the spec's
own decision D13, general knowledge G3; log entries 2, 10). -/
def Obligations.RndVxKkLoadsMaskedRandom : Prop :=
  ∀ (x : Reg) (kk : Byte) (s : State),
    decodeWord s.cfg (0xC#4 ++ (regBits x ++ kk)) = .ok (.rndVxKk x kk) ∧
    ∃ t, exec (.rndVxKk x kk) s = .next t ∧ t.ca = s.ca + 2 ∧
      t.reg x = (Config.randByte s.draws &&& kk) ∧ t.draws = s.draws + 1 ∧
      Frame (fun p => p = .reg x ∨ p = .draws) s t

/-- LD Vx, DT reads the delay timer and leaves it (encoding and operand: the spec's own decision D14, general knowledge G4; log entry 10). -/
def Obligations.LdVxDtReadsDelayTimer : Prop :=
  ∀ (x : Reg) (s : State),
    decodeWord s.cfg (0xF#4 ++ (regBits x ++ 0x07#8)) = .ok (.ldVxDt x) ∧
    ∃ t, exec (.ldVxDt x) s = .next t ∧ t.ca = s.ca + 2 ∧ t.reg x = s.dt ∧ Frame (fun p => p = .reg x) s t

/-- LD DT, Vx and LD ST, Vx write their timer (encodings and operand: the spec's own decision D14, general knowledge G4; log entry 10). -/
def Obligations.TimerLoadsWriteTheirTimer : Prop :=
  ∀ (x : Reg) (s : State),
    (decodeWord s.cfg (0xF#4 ++ (regBits x ++ 0x15#8)) = .ok (.ldDtVx x) ∧
      ∃ t, exec (.ldDtVx x) s = .next t ∧ t.ca = s.ca + 2 ∧ t.dt = s.reg x ∧ Frame (fun p => p = .dt) s t) ∧
    (decodeWord s.cfg (0xF#4 ++ (regBits x ++ 0x18#8)) = .ok (.ldStVx x) ∧
      ∃ t, exec (.ldStVx x) s = .next t ∧ t.ca = s.ca + 2 ∧ t.st = s.reg x ∧ Frame (fun p => p = .st) s t)

/-! ## Rules of the whole machine -/

/-- The "written by" column of the table of registers that are not general registers, and who writes `ram` and `fb`: over all instructions, `I` changes only
by Annn and Fx1E, `sp` and the stack only by 2nnn and 00EE (the stack by 2nnn alone), `DT` only by Fx15, `ST` only by Fx18, memory only by Fx55, the
framebuffer only by 00E0, the parameters by none. -/
def Obligations.SpecialStateHasOnlyItsWriters : Prop :=
  ∀ (i : Instr) (s t : State), exec i s = .next t →
    (t.idx ≠ s.idx → (∃ nnn, i = .ldINnn nnn) ∨ ∃ x, i = .addIVx x) ∧
    (t.sp ≠ s.sp → (∃ nnn, i = .call nnn) ∨ i = .ret) ∧
    (∀ k : Fin 16, t.stack[k] ≠ s.stack[k] → ∃ nnn, i = .call nnn) ∧
    (t.dt ≠ s.dt → ∃ x, i = .ldDtVx x) ∧
    (t.st ≠ s.st → ∃ x, i = .ldStVx x) ∧
    (∀ a, t.ramByte a ≠ s.ramByte a → ∃ x, i = .ldMemIVx x) ∧
    (∀ p, t.pixel p ≠ s.pixel p → i = .cls) ∧
    t.cfg = s.cfg

/-- The flag register's writers: over all instructions, `VF` changes only by a flag-writing instruction (8xy4, 8xy5, 8xy6, 8xy7, 8xyE, Fx1E) or as data by an
instruction whose destination is register 15 (10_state.md, "The flag register VF"). -/
def Obligations.FlagRegisterHasOnlyItsWriters : Prop :=
  ∀ (i : Instr) (s t : State), exec i s = .next t → t.reg 0xF ≠ s.reg 0xF →
    (∃ x y, i = .addVxVy x y ∨ i = .subVxVy x y ∨ i = .shrVx x y ∨ i = .subnVxVy x y ∨ i = .shlVx x y) ∨
    (∃ x, i = .addIVx x) ∨
    (∃ kk, i = .ldVxKk 0xF kk ∨ i = .addVxKk 0xF kk ∨ i = .rndVxKk 0xF kk) ∨
    (∃ y, i = .ldVxVy 0xF y ∨ i = .orVxVy 0xF y ∨ i = .andVxVy 0xF y ∨ i = .xorVxVy 0xF y) ∨
    i = .ldVxDt 0xF ∨ i = .ldVxMemI 0xF

/-- R222: one random byte is taken by each executed Cxkk and none by any other step (counted by the model's own field `draws`, log entry 2). -/
def Obligations.RandomPortCalledOnlyByRnd : Prop :=
  ∀ s t : State, step s = .next t →
    ((∃ x kk, s.ca.toNat + 1 < s.cfg.memSize ∧
        decode s.cfg (s.ramByte s.ca.toNat) (s.ramByte (s.ca.toNat + 1)) = .ok (.rndVxKk x kk)) →
      t.draws = s.draws + 1) ∧
    (¬ (∃ x kk, s.ca.toNat + 1 < s.cfg.memSize ∧
        decode s.cfg (s.ramByte s.ca.toNat) (s.ramByte (s.ca.toNat + 1)) = .ok (.rndVxKk x kk)) →
      t.draws = s.draws)

/-- R221: the display port gets `clear()` from an executed 00E0, `clear()` then `update(fb)` from an accepted load, and nothing from any other step, from the
tick or from a failed load (read from the model's own trace of the port, log entry 4). -/
def Obligations.DisplayPortEvents : Prop :=
  (∀ s t : State, step s = .next t →
    ((s.ca.toNat + 1 < s.cfg.memSize ∧ decode s.cfg (s.ramByte s.ca.toNat) (s.ramByte (s.ca.toNat + 1)) = .ok .cls) →
      t.display = s.display ++ [.clear]) ∧
    (¬ (s.ca.toNat + 1 < s.cfg.memSize ∧ decode s.cfg (s.ramByte s.ca.toNat) (s.ramByte (s.ca.toNat + 1)) = .ok .cls) →
      t.display = s.display)) ∧
  (∀ (src : LoadSource) (s t : State), load src s = .ok t → t.display = s.display ++ [.clear, .update t.fb]) ∧
  (∀ s t : State, applyMove .tick s = .next t → t.display = s.display) ∧
  (∀ (src : LoadSource) (e : LoadError) (s t : State), load src s = .error e → applyMove (.load src) s = .next t → t.display = s.display)

/-- Outputs never influence execution: two states that differ only in the diagnostic and display traces, the framebuffer and the sound timer step to states that
differ only in those (10_state.md, "Hidden state"; 40_dispatch.md, ILLEGAL handler: diagnostics never alter control flow). The two states have taken the same
number of random bytes, so a `Cxkk` receives the same byte in both: that is the model's choice, not the spec's (log entry 2, DESIGN CHOICE; unsafe for two
separate machines). That the display port's events are a trace in State is the model's choice too (log entry 4). -/
def Obligations.OutputsNeverInfluenceExecution : Prop :=
  ∀ s s' t t' : State, AgreeForPrograms s s' → step s = .next t → step s' = .next t' → AgreeForPrograms t t'

/-! ## Reset, host moves, invariants -/

/-- R240: creation leaves all state zero except `ca`, which is `0x200`, and `I`, which is 0; creation sends no display event. Whatever the parameters. -/
def Obligations.CreationZeroesAllButCa : Prop :=
  State.reset = State.create Config.standard ∧
  ∀ c : Config,
    let s := State.create c
    s.ca = 0x200 ∧ s.idx = 0 ∧ (∀ r, s.reg r = 0) ∧ s.sp.val = 0 ∧ (∀ k : Fin 16, s.stack[k] = 0) ∧ (∀ a, s.ramByte a = 0) ∧
    s.dt = 0 ∧ s.st = 0 ∧ (∀ p, s.pixel p = 0) ∧ s.display = []

/-- What else the machine right after reset holds: an empty diagnostic output (the spec's own decision D17), the default parameters (D1, D2, D3, D10,
D16; log entry 1) and no random byte taken (the model's own counter, log entry 2). -/
def Obligations.ResetParametersAndTraces : Prop :=
  State.reset.diag = [] ∧ State.reset.draws = 0 ∧ State.reset.cfg.memSize = 4096 ∧ State.reset.cfg.addrCeiling = 0x0FFF ∧
  State.reset.cfg.fx1eClearsVF = false ∧ State.reset.cfg.class9ChecksN = false ∧ State.reset.cfg.fbW = 64 ∧ State.reset.cfg.fbH = 32 ∧
  State.reset.cfg.wf = true

/-- A machine without a program is well defined: its first step absorbs the word `0x0000` at `0x200` (derived by the spec from its reset and ILLEGAL rules). -/
def Obligations.UnloadedMachineSlides : Prop :=
  ∃ t, step State.reset = .next t ∧ Rejected .illegal (some (0x00, 0x00)) State.reset t ∧ t.ca = 0x202

/-- The tick: each timer goes down by one and stops at 0 (the floor is the spec's own decision D15, general knowledge G5; log entry 10); nothing else changes. -/
def Obligations.TickCountsDownToZero : Prop :=
  ∀ s : State, ∃ t, applyMove .tick s = .next t ∧
    t.dt.toNat = s.dt.toNat - 1 ∧ t.st.toNat = s.st.toNat - 1 ∧ t.ca = s.ca ∧
    Frame (fun p => p = .dt ∨ p = .st) s t

/-- R220, R226: the memory load port. -/
def Obligations.LoadCopiesImageOrFails : Prop :=
  ∀ (bytes : List Byte) (s : State),
    load .unreadable s = .error .sourceUnreadable ∧
    (s.cfg.memSize - 0x200 < bytes.length → load (.image bytes) s = .error .sizeExceeded) ∧
    (∀ (src : LoadSource) (e : LoadError), load src s = .error e → applyMove (.load src) s = .next s) ∧
    (bytes.length ≤ s.cfg.memSize - 0x200 →
      ∃ t, load (.image bytes) s = .ok t ∧ applyMove (.load (.image bytes)) s = .next t ∧
        (∀ (k : Nat) (h : k < bytes.length), t.ramByte (0x200 + k) = bytes[k]) ∧
        (∀ p, t.pixel p = 0) ∧
        t.display = s.display ++ [.clear, .update t.fb] ∧
        t.ca = s.ca ∧
        Frame (fun p => p = .display ∨ (∃ q, p = .pixel q) ∨ ∃ k, k < bytes.length ∧ p = .byte (0x200 + k)) s t)

/-- The invariant holds of the machine as created, for all parameters in the range of D1, the default ones among them. -/
def Obligations.CreatedMachineMeetsInvariant : Prop :=
  (∀ c : Config, c.wf = true → Inv (State.create c)) ∧ Inv State.reset

/-- Every step keeps the invariant: parameters in range, memory canonical and inside the address space, framebuffer all zero, every stack entry in use the
address of a fetchable instruction (the spec's derived facts of 10_state.md "Framebuffer", 41_control_flow.md RET corner case 3, and D23). -/
def Obligations.EveryStepKeepsInvariant : Prop :=
  ∀ s t : State, Inv s → step s = .next t → Inv t

/-- Every run of the host's moves, in any order and number, completes, keeps the invariant and never changes the parameters. -/
def Obligations.EveryRunKeepsInvariant : Prop :=
  ∀ (ms : List Move) (s : State), Inv s → ∃ t, runMoves ms s = .next t ∧ Inv t ∧ t.cfg = s.cfg
end

