-- ==== Sys2Proof/Laws/Decode.lean ====
section
/-! SUPPORT. The fields of a built word and the word built from its fields: the small lemmas of the field functions and the three word formats. -/

namespace Sys2Proof

/-! ### Slices of a concatenation -/

theorem extract_append_high {n m : Nat} (a : BitVec n) (b : BitVec m) : (a ++ b).extractLsb' m n = a := by
  ext i hi; simp [BitVec.getLsbD_append, BitVec.getLsbD_eq_getElem hi]

theorem extract_append_low {n m k j : Nat} (a : BitVec n) (b : BitVec m) (h : j + k ≤ m) :
    (a ++ b).extractLsb' j k = b.extractLsb' j k := by
  ext i hi
  have : j + i < m := by omega
  simp [BitVec.getLsbD_append, this]

theorem extract_all {n : Nat} (a : BitVec n) : a.extractLsb' 0 n = a := by
  ext i hi; simp

theorem append_extract_low {n m k : Nat} (w : BitVec k) : w.extractLsb' m n ++ w.extractLsb' 0 m = w.extractLsb' 0 (n + m) := by
  ext i hi
  simp only [BitVec.getElem_append, BitVec.getElem_extractLsb', Nat.zero_add]
  split
  · rfl
  · rw [show m + (i - m) = i by omega]

theorem append_extract {n m : Nat} (w : BitVec (n + m)) : w.extractLsb' m n ++ w.extractLsb' 0 m = w :=
  (append_extract_low w).trans (extract_all w)

/-! ### Bytes -/

@[simp] theorem byteHi_wordOf (a b : Byte) : byteHi (wordOf a b) = a := extract_append_high a b

@[simp] theorem byteLo_wordOf (a b : Byte) : byteLo (wordOf a b) = b :=
  (extract_append_low a b (Nat.le_refl 8)).trans (extract_all b)

/-- The two bytes of a word make the word (R81). -/
@[simp] theorem wordOf_bytes (w : Word) : wordOf (byteHi w) (byteLo w) = w := append_extract (n := 8) (m := 8) w

/-! ### Fields of a built word -/

@[simp] theorem fieldClass_wordNNN (c : Nibble) (nnn : Imm12) : fieldClass (wordNNN c nnn) = c := extract_append_high c nnn

@[simp] theorem fieldNnn_wordNNN (c : Nibble) (nnn : Imm12) : fieldNnn (wordNNN c nnn) = nnn :=
  (extract_append_low c nnn (Nat.le_refl 12)).trans (extract_all nnn)

@[simp] theorem fieldClass_wordXKK (c : Nibble) (x : Reg) (kk : Byte) : fieldClass (wordXKK c x kk) = c :=
  extract_append_high c (regBits x ++ kk)

@[simp] theorem fieldX_wordXKK (c : Nibble) (x : Reg) (kk : Byte) : fieldX (wordXKK c x kk) = x :=
  congrArg BitVec.toFin ((extract_append_low c (regBits x ++ kk) (Nat.le_refl 12)).trans (extract_append_high (regBits x) kk))

@[simp] theorem fieldKk_wordXKK (c : Nibble) (x : Reg) (kk : Byte) : fieldKk (wordXKK c x kk) = kk :=
  (extract_append_low c (regBits x ++ kk) (show 0 + 8 ≤ 12 by decide)).trans
    ((extract_append_low (regBits x) kk (Nat.le_refl 8)).trans (extract_all kk))

@[simp] theorem fieldClass_wordXYN (c : Nibble) (x y : Reg) (n : Nibble) : fieldClass (wordXYN c x y n) = c :=
  extract_append_high c (regBits x ++ (regBits y ++ n))

@[simp] theorem fieldX_wordXYN (c : Nibble) (x y : Reg) (n : Nibble) : fieldX (wordXYN c x y n) = x :=
  congrArg BitVec.toFin
    ((extract_append_low c (regBits x ++ (regBits y ++ n)) (Nat.le_refl 12)).trans (extract_append_high (regBits x) (regBits y ++ n)))

@[simp] theorem fieldY_wordXYN (c : Nibble) (x y : Reg) (n : Nibble) : fieldY (wordXYN c x y n) = y :=
  congrArg BitVec.toFin
    ((extract_append_low c (regBits x ++ (regBits y ++ n)) (show 4 + 4 ≤ 12 by decide)).trans
      ((extract_append_low (regBits x) (regBits y ++ n) (Nat.le_refl 8)).trans (extract_append_high (regBits y) n)))

@[simp] theorem fieldN_wordXYN (c : Nibble) (x y : Reg) (n : Nibble) : fieldN (wordXYN c x y n) = n :=
  (extract_append_low c (regBits x ++ (regBits y ++ n)) (show 0 + 4 ≤ 12 by decide)).trans
    ((extract_append_low (regBits x) (regBits y ++ n) (show 0 + 4 ≤ 8 by decide)).trans
      ((extract_append_low (regBits y) n (Nat.le_refl 4)).trans (extract_all n)))

/-! ### Bytes of a built word -/

/-- A slice that takes in all of the high part and the top of the low part. -/
theorem extract_append_across {n m j k : Nat} (a : BitVec n) (b : BitVec m) (h : j + k = m) :
    (a ++ b).extractLsb' j (n + k) = a ++ b.extractLsb' j k := by
  ext i hi
  simp only [BitVec.getElem_append, BitVec.getElem_extractLsb', BitVec.getLsbD_append]
  by_cases hk : i < k
  · have : j + i < m := by omega
    simp [hk, this]
  · have : ¬ j + i < m := by omega
    rw [dif_neg hk, if_neg this, show j + i - m = i - k by omega, BitVec.getLsbD_eq_getElem]

@[simp] theorem byteHi_wordNNN (c : Nibble) (nnn : Imm12) : byteHi (wordNNN c nnn) = c ++ nnn.extractLsb' 8 4 :=
  extract_append_across (k := 4) c nnn rfl

@[simp] theorem byteLo_wordNNN (c : Nibble) (nnn : Imm12) : byteLo (wordNNN c nnn) = nnn.extractLsb' 0 8 :=
  extract_append_low c nnn (show 0 + 8 ≤ 12 by decide)

@[simp] theorem byteHi_wordXKK (c : Nibble) (x : Reg) (kk : Byte) : byteHi (wordXKK c x kk) = c ++ regBits x :=
  (byteHi_wordNNN c (regBits x ++ kk)).trans (congrArg (c ++ ·) (extract_append_high (regBits x) kk))

@[simp] theorem byteLo_wordXKK (c : Nibble) (x : Reg) (kk : Byte) : byteLo (wordXKK c x kk) = kk := fieldKk_wordXKK c x kk

@[simp] theorem byteHi_wordXYN (c : Nibble) (x y : Reg) (n : Nibble) : byteHi (wordXYN c x y n) = c ++ regBits x :=
  byteHi_wordXKK c x (regBits y ++ n)

@[simp] theorem byteLo_wordXYN (c : Nibble) (x y : Reg) (n : Nibble) : byteLo (wordXYN c x y n) = regBits y ++ n :=
  fieldKk_wordXKK c x (regBits y ++ n)

/-! ### A word from its fields -/

/-- Format `NNN` read back (R83). -/
theorem wordNNN_fields (w : Word) : wordNNN (fieldClass w) (fieldNnn w) = w := append_extract (n := 4) (m := 12) w

/-- Format `XKK` read back (R83; R82: `nnn = x ## kk`). -/
theorem wordXKK_fields (w : Word) : wordXKK (fieldClass w) (fieldX w) (fieldKk w) = w := by
  have h : regBits (fieldX w) ++ fieldKk w = fieldNnn w := append_extract_low (n := 4) (m := 8) w
  rw [wordXKK, h]; exact wordNNN_fields w

/-- Format `XYN` read back (R83; R82: `kk = y ## n`). -/
theorem wordXYN_fields (w : Word) : wordXYN (fieldClass w) (fieldX w) (fieldY w) (fieldN w) = w := by
  have h : regBits (fieldY w) ++ fieldN w = fieldKk w := append_extract_low (n := 4) (m := 4) w
  rw [wordXYN, h]; exact wordXKK_fields w

end Sys2Proof
end

