-- ==== Sys2Proof/Laws/Memory.lean ====
section
/-! SUPPORT. The laws of memory: read after write, the canonical form and the address bound kept by every operation. The read laws hold of
every list of cells, canonical or not. -/

namespace Sys2Proof.Machine

namespace MemoryLaws

@[simp] theorem read_nil (a : Nat) : Memory.read [] a = 0 := rfl

theorem read_erase (m : Memory) (a b : Nat) : Memory.read (Memory.erase m a) b = if b = a then 0 else Memory.read m b := by
  induction m with
  | nil => simp [Memory.erase]
  | cons c m ih =>
    obtain ⟨k, v⟩ := c
    simp only [Memory.erase, List.filter_cons] at ih ⊢
    by_cases hk : k = a
    · subst hk
      simp only [ne_eq, not_true_eq_false, decide_false, Bool.false_eq_true, if_false, ih, Memory.read]
      by_cases hb : b = k <;> simp [hb, eq_comm]
    · simp only [ne_eq, hk, not_false_eq_true, decide_true, if_true, Memory.read, ih]
      by_cases hb : b = a
      · subst hb; simp [hk]
      · simp [hb]

/-- A memory that lists nothing at `a` does not begin with a cell at `a`, and neither does its tail. -/
theorem erase_cons_eq {k a : Nat} {w : Byte} {m : Memory} (h : Memory.erase ((k, w) :: m) a = (k, w) :: m) :
    k ≠ a ∧ Memory.erase m a = m := by
  have hk : k ≠ a := by
    intro hk
    have := congrArg List.length h
    have hle := List.length_filter_le (fun c : Host.Cell => c.1 ≠ a) m
    simp [Memory.erase, hk] at this hle
    omega
  exact ⟨hk, by simpa [Memory.erase, List.filter_cons, hk] using h⟩

theorem read_insert (m : Memory) (a b : Nat) (v : Byte) (h : Memory.erase m a = m) :
    Memory.read (Memory.insert m a v) b = if b = a then v else Memory.read m b := by
  induction m with
  | nil => simp [Memory.insert, Memory.read, eq_comm]
  | cons c m ih =>
    obtain ⟨k, w⟩ := c
    obtain ⟨hk, hm⟩ := erase_cons_eq h
    simp only [Memory.insert]
    split
    · simp [Memory.read, eq_comm]
    · simp only [Memory.read, ih hm]
      by_cases hb : b = a
      · subst hb; simp [hk]
      · simp [hb]

@[simp] theorem erase_erase (m : Memory) (a : Nat) : Memory.erase (Memory.erase m a) a = Memory.erase m a := by
  simp [Memory.erase, List.filter_filter]

/-- A read after a write: the written value at the written address, the old value elsewhere (R57 (2), R62). -/
theorem read_write (m : Memory) (a b : Nat) (v : Byte) :
    Memory.read (Memory.write m a v) b = if b = a then v else Memory.read m b := by
  unfold Memory.write
  split
  · subst_vars; exact read_erase m a b
  · rw [read_insert _ _ _ _ (erase_erase m a), read_erase]
    split <;> simp_all

theorem read_writeBytes (bs : List Byte) (m : Memory) (a b : Nat) :
    Memory.read (Memory.writeBytes m a bs) b =
      if h : a ≤ b ∧ b < a + bs.length then bs[b - a]'(by omega) else Memory.read m b := by
  induction bs generalizing m a with
  | nil => simp [Memory.writeBytes]
  | cons c bs ih =>
    rw [Memory.writeBytes, ih, read_write]
    by_cases hab : b = a
    · subst hab; simp
    · by_cases h : a + 1 ≤ b ∧ b < a + 1 + bs.length
      · have h' : a ≤ b ∧ b < a + (c :: bs).length := by simp; omega
        rw [dif_pos h, dif_pos h']
        have : b - a = (b - (a + 1)) + 1 := by omega
        simp [this]
      · have h' : ¬ (a ≤ b ∧ b < a + (c :: bs).length) := by simp; omega
        rw [dif_neg h, dif_neg h', if_neg hab]

@[simp] theorem readBytes_length (m : Memory) (a n : Nat) : (Memory.readBytes m a n).length = n := by
  induction n generalizing a with
  | zero => rfl
  | succ n ih => simp [Memory.readBytes, ih]

@[simp] theorem readBytes_getElem (m : Memory) (a n j : Nat) (h : j < (Memory.readBytes m a n).length) :
    (Memory.readBytes m a n)[j] = Memory.read m (a + j) := by
  induction n generalizing a j with
  | zero => simp at h
  | succ n ih =>
    cases j with
    | zero => simp [Memory.readBytes]
    | succ j => simp [Memory.readBytes, ih, Nat.add_assoc, Nat.add_comm 1]

/-! ### The canonical form -/

theorem wfFrom_mono {lo lo' : Nat} {m : Memory} (hl : lo' ≤ lo) (h : Memory.wfFrom lo m = true) : Memory.wfFrom lo' m = true := by
  cases m with
  | nil => rfl
  | cons c m =>
    obtain ⟨k, v⟩ := c
    simp only [Memory.wfFrom, Bool.and_eq_true, decide_eq_true_eq] at h ⊢
    exact ⟨⟨by omega, h.1.2⟩, h.2⟩

theorem wfFrom_erase {lo : Nat} {m : Memory} (a : Nat) (h : Memory.wfFrom lo m = true) : Memory.wfFrom lo (Memory.erase m a) = true := by
  induction m generalizing lo with
  | nil => rfl
  | cons c m ih =>
    obtain ⟨k, v⟩ := c
    simp only [Memory.wfFrom, Bool.and_eq_true, decide_eq_true_eq] at h
    simp only [Memory.erase, List.filter_cons] at ih ⊢
    by_cases hk : k = a
    · simp only [hk, ne_eq, not_true_eq_false, decide_false, Bool.false_eq_true, if_false]
      exact wfFrom_mono (by omega) (ih h.2)
    · simp only [ne_eq, hk, not_false_eq_true, decide_true, if_true, Memory.wfFrom, Bool.and_eq_true, decide_eq_true_eq]
      exact ⟨h.1, ih h.2⟩

theorem wfFrom_insert {lo a : Nat} {m : Memory} {v : Byte} (hv : v ≠ 0) (hl : lo ≤ a) (he : Memory.erase m a = m)
    (h : Memory.wfFrom lo m = true) : Memory.wfFrom lo (Memory.insert m a v) = true := by
  induction m generalizing lo with
  | nil => simpa [Memory.insert, Memory.wfFrom, hl] using hv
  | cons c m ih =>
    obtain ⟨k, w⟩ := c
    obtain ⟨hk, hm⟩ := erase_cons_eq he
    simp only [Memory.wfFrom, Bool.and_eq_true, decide_eq_true_eq] at h
    simp only [Memory.insert]
    split
    · simp only [Memory.wfFrom, Bool.and_eq_true, decide_eq_true_eq]
      exact ⟨⟨hl, by simpa using hv⟩, ⟨by omega, h.1.2⟩, h.2⟩
    · simp only [Memory.wfFrom, Bool.and_eq_true, decide_eq_true_eq]
      exact ⟨h.1, ih (by omega) hm h.2⟩

/-- A write keeps the canonical form. -/
theorem wf_write {m : Memory} (a : Nat) (v : Byte) (h : Memory.wf m = true) : Memory.wf (Memory.write m a v) = true := by
  unfold Memory.write
  split
  · exact wfFrom_erase a h
  · exact wfFrom_insert ‹_› (Nat.zero_le a) (erase_erase m a) (wfFrom_erase a h)

/-- A block of writes keeps the canonical form. -/
theorem wf_writeBytes {m : Memory} (a : Nat) (bs : List Byte) (h : Memory.wf m = true) :
    Memory.wf (Memory.writeBytes m a bs) = true := by
  induction bs generalizing m a with
  | nil => exact h
  | cons b bs ih => exact ih (a + 1) (wf_write a b h)

/-- The memory of the created machine is in canonical form. -/
theorem wf_create (c : Config) : Memory.wf (State.create c).ram = true := rfl

/-! ### The address bound -/

theorem below_erase {n : Nat} {m : Memory} (a : Nat) (h : Memory.below n m = true) : Memory.below n (Memory.erase m a) = true := by
  simp only [Memory.below, Memory.erase, List.all_eq_true, List.mem_filter] at h ⊢
  exact fun c hc => h c hc.1

theorem below_insert {n a : Nat} {m : Memory} (v : Byte) (ha : a < n) (h : Memory.below n m = true) :
    Memory.below n (Memory.insert m a v) = true := by
  induction m with
  | nil => simp [Memory.insert, Memory.below, ha]
  | cons c m ih =>
    simp only [Memory.below, List.all_cons, Bool.and_eq_true, decide_eq_true_eq] at h ih
    simp only [Memory.insert]
    split
    · simp [Memory.below, ha, h.1]; simpa using h.2
    · simp [Memory.below, h.1]; simpa using ih h.2

/-- A write below a bound keeps every listed address below it. -/
theorem below_write {n a : Nat} {m : Memory} (v : Byte) (ha : a < n) (h : Memory.below n m = true) :
    Memory.below n (Memory.write m a v) = true := by
  unfold Memory.write
  split
  · exact below_erase a h
  · exact below_insert v ha (below_erase a h)

/-- A block of writes that ends at or below a bound keeps every listed address below it. -/
theorem below_writeBytes {n a : Nat} {m : Memory} (bs : List Byte) (ha : a + bs.length ≤ n) (h : Memory.below n m = true) :
    Memory.below n (Memory.writeBytes m a bs) = true := by
  induction bs generalizing m a with
  | nil => exact h
  | cons b bs ih =>
    simp only [List.length_cons] at ha
    exact ih (by omega) (below_write b (by omega) h)

end MemoryLaws

end Sys2Proof.Machine
end

