-- ==== Sys2Proof/Laws/State.lean ====
section
/-! SUPPORT. One lemma per field and accessor of State, per update: no later proof unfolds a record update. -/

namespace Sys2Proof.Machine

variable (s : State)

/-! ### `setRam` -/

@[simp] theorem setRam_cfg (m : Memory) : (s.setRam m).cfg = s.cfg := rfl
@[simp] theorem setRam_v (m : Memory) : (s.setRam m).v = s.v := rfl
@[simp] theorem setRam_idx (m : Memory) : (s.setRam m).idx = s.idx := rfl
@[simp] theorem setRam_ca (m : Memory) : (s.setRam m).ca = s.ca := rfl
@[simp] theorem setRam_sp (m : Memory) : (s.setRam m).sp = s.sp := rfl
@[simp] theorem setRam_stack (m : Memory) : (s.setRam m).stack = s.stack := rfl
@[simp] theorem setRam_ram (m : Memory) : (s.setRam m).ram = m := rfl
@[simp] theorem setRam_dt (m : Memory) : (s.setRam m).dt = s.dt := rfl
@[simp] theorem setRam_st (m : Memory) : (s.setRam m).st = s.st := rfl
@[simp] theorem setRam_fb (m : Memory) : (s.setRam m).fb = s.fb := rfl
@[simp] theorem setRam_diag (m : Memory) : (s.setRam m).diag = s.diag := rfl
@[simp] theorem setRam_display (m : Memory) : (s.setRam m).display = s.display := rfl
@[simp] theorem setRam_draws (m : Memory) : (s.setRam m).draws = s.draws := rfl
@[simp] theorem setRam_reg (m : Memory) (r : Reg) : (s.setRam m).reg r = s.reg r := rfl
@[simp] theorem setRam_pixel (m : Memory) (p : Nat) : (s.setRam m).pixel p = s.pixel p := rfl

/-! ### `setReg` -/

@[simp] theorem setReg_cfg (x : Reg) (b : Byte) : (s.setReg x b).cfg = s.cfg := rfl
@[simp] theorem setReg_v (x : Reg) (b : Byte) : (s.setReg x b).v = s.v.set x b := rfl
@[simp] theorem setReg_idx (x : Reg) (b : Byte) : (s.setReg x b).idx = s.idx := rfl
@[simp] theorem setReg_ca (x : Reg) (b : Byte) : (s.setReg x b).ca = s.ca := rfl
@[simp] theorem setReg_sp (x : Reg) (b : Byte) : (s.setReg x b).sp = s.sp := rfl
@[simp] theorem setReg_stack (x : Reg) (b : Byte) : (s.setReg x b).stack = s.stack := rfl
@[simp] theorem setReg_ram (x : Reg) (b : Byte) : (s.setReg x b).ram = s.ram := rfl
@[simp] theorem setReg_dt (x : Reg) (b : Byte) : (s.setReg x b).dt = s.dt := rfl
@[simp] theorem setReg_st (x : Reg) (b : Byte) : (s.setReg x b).st = s.st := rfl
@[simp] theorem setReg_fb (x : Reg) (b : Byte) : (s.setReg x b).fb = s.fb := rfl
@[simp] theorem setReg_diag (x : Reg) (b : Byte) : (s.setReg x b).diag = s.diag := rfl
@[simp] theorem setReg_display (x : Reg) (b : Byte) : (s.setReg x b).display = s.display := rfl
@[simp] theorem setReg_draws (x : Reg) (b : Byte) : (s.setReg x b).draws = s.draws := rfl
@[simp] theorem setReg_ramByte (x : Reg) (b : Byte) (a : Nat) : (s.setReg x b).ramByte a = s.ramByte a := rfl
@[simp] theorem setReg_pixel (x : Reg) (b : Byte) (p : Nat) : (s.setReg x b).pixel p = s.pixel p := rfl

/-! ### `setRegs` -/

@[simp] theorem setRegs_cfg (bs : List Byte) : (s.setRegs bs).cfg = s.cfg := rfl
@[simp] theorem setRegs_v (bs : List Byte) : (s.setRegs bs).v = loadRegs s.v 0 bs := rfl
@[simp] theorem setRegs_idx (bs : List Byte) : (s.setRegs bs).idx = s.idx := rfl
@[simp] theorem setRegs_ca (bs : List Byte) : (s.setRegs bs).ca = s.ca := rfl
@[simp] theorem setRegs_sp (bs : List Byte) : (s.setRegs bs).sp = s.sp := rfl
@[simp] theorem setRegs_stack (bs : List Byte) : (s.setRegs bs).stack = s.stack := rfl
@[simp] theorem setRegs_ram (bs : List Byte) : (s.setRegs bs).ram = s.ram := rfl
@[simp] theorem setRegs_dt (bs : List Byte) : (s.setRegs bs).dt = s.dt := rfl
@[simp] theorem setRegs_st (bs : List Byte) : (s.setRegs bs).st = s.st := rfl
@[simp] theorem setRegs_fb (bs : List Byte) : (s.setRegs bs).fb = s.fb := rfl
@[simp] theorem setRegs_diag (bs : List Byte) : (s.setRegs bs).diag = s.diag := rfl
@[simp] theorem setRegs_display (bs : List Byte) : (s.setRegs bs).display = s.display := rfl
@[simp] theorem setRegs_draws (bs : List Byte) : (s.setRegs bs).draws = s.draws := rfl
@[simp] theorem setRegs_ramByte (bs : List Byte) (a : Nat) : (s.setRegs bs).ramByte a = s.ramByte a := rfl
@[simp] theorem setRegs_pixel (bs : List Byte) (p : Nat) : (s.setRegs bs).pixel p = s.pixel p := rfl

/-! ### `setIdx` -/

@[simp] theorem setIdx_cfg (w : Word) : (s.setIdx w).cfg = s.cfg := rfl
@[simp] theorem setIdx_v (w : Word) : (s.setIdx w).v = s.v := rfl
@[simp] theorem setIdx_idx (w : Word) : (s.setIdx w).idx = w := rfl
@[simp] theorem setIdx_ca (w : Word) : (s.setIdx w).ca = s.ca := rfl
@[simp] theorem setIdx_sp (w : Word) : (s.setIdx w).sp = s.sp := rfl
@[simp] theorem setIdx_stack (w : Word) : (s.setIdx w).stack = s.stack := rfl
@[simp] theorem setIdx_ram (w : Word) : (s.setIdx w).ram = s.ram := rfl
@[simp] theorem setIdx_dt (w : Word) : (s.setIdx w).dt = s.dt := rfl
@[simp] theorem setIdx_st (w : Word) : (s.setIdx w).st = s.st := rfl
@[simp] theorem setIdx_fb (w : Word) : (s.setIdx w).fb = s.fb := rfl
@[simp] theorem setIdx_diag (w : Word) : (s.setIdx w).diag = s.diag := rfl
@[simp] theorem setIdx_display (w : Word) : (s.setIdx w).display = s.display := rfl
@[simp] theorem setIdx_draws (w : Word) : (s.setIdx w).draws = s.draws := rfl
@[simp] theorem setIdx_reg (w : Word) (r : Reg) : (s.setIdx w).reg r = s.reg r := rfl
@[simp] theorem setIdx_ramByte (w : Word) (a : Nat) : (s.setIdx w).ramByte a = s.ramByte a := rfl
@[simp] theorem setIdx_pixel (w : Word) (p : Nat) : (s.setIdx w).pixel p = s.pixel p := rfl

/-! ### `setCa` -/

@[simp] theorem setCa_cfg (w : Word) : (s.setCa w).cfg = s.cfg := rfl
@[simp] theorem setCa_v (w : Word) : (s.setCa w).v = s.v := rfl
@[simp] theorem setCa_idx (w : Word) : (s.setCa w).idx = s.idx := rfl
@[simp] theorem setCa_ca (w : Word) : (s.setCa w).ca = w := rfl
@[simp] theorem setCa_sp (w : Word) : (s.setCa w).sp = s.sp := rfl
@[simp] theorem setCa_stack (w : Word) : (s.setCa w).stack = s.stack := rfl
@[simp] theorem setCa_ram (w : Word) : (s.setCa w).ram = s.ram := rfl
@[simp] theorem setCa_dt (w : Word) : (s.setCa w).dt = s.dt := rfl
@[simp] theorem setCa_st (w : Word) : (s.setCa w).st = s.st := rfl
@[simp] theorem setCa_fb (w : Word) : (s.setCa w).fb = s.fb := rfl
@[simp] theorem setCa_diag (w : Word) : (s.setCa w).diag = s.diag := rfl
@[simp] theorem setCa_display (w : Word) : (s.setCa w).display = s.display := rfl
@[simp] theorem setCa_draws (w : Word) : (s.setCa w).draws = s.draws := rfl
@[simp] theorem setCa_reg (w : Word) (r : Reg) : (s.setCa w).reg r = s.reg r := rfl
@[simp] theorem setCa_ramByte (w : Word) (a : Nat) : (s.setCa w).ramByte a = s.ramByte a := rfl
@[simp] theorem setCa_pixel (w : Word) (p : Nat) : (s.setCa w).pixel p = s.pixel p := rfl

/-! ### `setDt` -/

@[simp] theorem setDt_cfg (b : Byte) : (s.setDt b).cfg = s.cfg := rfl
@[simp] theorem setDt_v (b : Byte) : (s.setDt b).v = s.v := rfl
@[simp] theorem setDt_idx (b : Byte) : (s.setDt b).idx = s.idx := rfl
@[simp] theorem setDt_ca (b : Byte) : (s.setDt b).ca = s.ca := rfl
@[simp] theorem setDt_sp (b : Byte) : (s.setDt b).sp = s.sp := rfl
@[simp] theorem setDt_stack (b : Byte) : (s.setDt b).stack = s.stack := rfl
@[simp] theorem setDt_ram (b : Byte) : (s.setDt b).ram = s.ram := rfl
@[simp] theorem setDt_dt (b : Byte) : (s.setDt b).dt = b := rfl
@[simp] theorem setDt_st (b : Byte) : (s.setDt b).st = s.st := rfl
@[simp] theorem setDt_fb (b : Byte) : (s.setDt b).fb = s.fb := rfl
@[simp] theorem setDt_diag (b : Byte) : (s.setDt b).diag = s.diag := rfl
@[simp] theorem setDt_display (b : Byte) : (s.setDt b).display = s.display := rfl
@[simp] theorem setDt_draws (b : Byte) : (s.setDt b).draws = s.draws := rfl
@[simp] theorem setDt_reg (b : Byte) (r : Reg) : (s.setDt b).reg r = s.reg r := rfl
@[simp] theorem setDt_ramByte (b : Byte) (a : Nat) : (s.setDt b).ramByte a = s.ramByte a := rfl
@[simp] theorem setDt_pixel (b : Byte) (p : Nat) : (s.setDt b).pixel p = s.pixel p := rfl

/-! ### `setSt` -/

@[simp] theorem setSt_cfg (b : Byte) : (s.setSt b).cfg = s.cfg := rfl
@[simp] theorem setSt_v (b : Byte) : (s.setSt b).v = s.v := rfl
@[simp] theorem setSt_idx (b : Byte) : (s.setSt b).idx = s.idx := rfl
@[simp] theorem setSt_ca (b : Byte) : (s.setSt b).ca = s.ca := rfl
@[simp] theorem setSt_sp (b : Byte) : (s.setSt b).sp = s.sp := rfl
@[simp] theorem setSt_stack (b : Byte) : (s.setSt b).stack = s.stack := rfl
@[simp] theorem setSt_ram (b : Byte) : (s.setSt b).ram = s.ram := rfl
@[simp] theorem setSt_dt (b : Byte) : (s.setSt b).dt = s.dt := rfl
@[simp] theorem setSt_st (b : Byte) : (s.setSt b).st = b := rfl
@[simp] theorem setSt_fb (b : Byte) : (s.setSt b).fb = s.fb := rfl
@[simp] theorem setSt_diag (b : Byte) : (s.setSt b).diag = s.diag := rfl
@[simp] theorem setSt_display (b : Byte) : (s.setSt b).display = s.display := rfl
@[simp] theorem setSt_draws (b : Byte) : (s.setSt b).draws = s.draws := rfl
@[simp] theorem setSt_reg (b : Byte) (r : Reg) : (s.setSt b).reg r = s.reg r := rfl
@[simp] theorem setSt_ramByte (b : Byte) (a : Nat) : (s.setSt b).ramByte a = s.ramByte a := rfl
@[simp] theorem setSt_pixel (b : Byte) (p : Nat) : (s.setSt b).pixel p = s.pixel p := rfl

/-! ### `push` -/

@[simp] theorem push_cfg (k : Fin 16) (w : Word) : (s.push k w).cfg = s.cfg := rfl
@[simp] theorem push_v (k : Fin 16) (w : Word) : (s.push k w).v = s.v := rfl
@[simp] theorem push_idx (k : Fin 16) (w : Word) : (s.push k w).idx = s.idx := rfl
@[simp] theorem push_ca (k : Fin 16) (w : Word) : (s.push k w).ca = s.ca := rfl
@[simp] theorem push_sp (k : Fin 16) (w : Word) : (s.push k w).sp = k.succ := rfl
@[simp] theorem push_stack (k : Fin 16) (w : Word) : (s.push k w).stack = s.stack.set k w := rfl
@[simp] theorem push_ram (k : Fin 16) (w : Word) : (s.push k w).ram = s.ram := rfl
@[simp] theorem push_dt (k : Fin 16) (w : Word) : (s.push k w).dt = s.dt := rfl
@[simp] theorem push_st (k : Fin 16) (w : Word) : (s.push k w).st = s.st := rfl
@[simp] theorem push_fb (k : Fin 16) (w : Word) : (s.push k w).fb = s.fb := rfl
@[simp] theorem push_diag (k : Fin 16) (w : Word) : (s.push k w).diag = s.diag := rfl
@[simp] theorem push_display (k : Fin 16) (w : Word) : (s.push k w).display = s.display := rfl
@[simp] theorem push_draws (k : Fin 16) (w : Word) : (s.push k w).draws = s.draws := rfl
@[simp] theorem push_reg (k : Fin 16) (w : Word) (r : Reg) : (s.push k w).reg r = s.reg r := rfl
@[simp] theorem push_ramByte (k : Fin 16) (w : Word) (a : Nat) : (s.push k w).ramByte a = s.ramByte a := rfl
@[simp] theorem push_pixel (k : Fin 16) (w : Word) (p : Nat) : (s.push k w).pixel p = s.pixel p := rfl

/-! ### `pop` -/

@[simp] theorem pop_cfg (k : Fin 16) : (s.pop k).cfg = s.cfg := rfl
@[simp] theorem pop_v (k : Fin 16) : (s.pop k).v = s.v := rfl
@[simp] theorem pop_idx (k : Fin 16) : (s.pop k).idx = s.idx := rfl
@[simp] theorem pop_ca (k : Fin 16) : (s.pop k).ca = s.ca := rfl
@[simp] theorem pop_sp (k : Fin 16) : (s.pop k).sp = k.castSucc := rfl
@[simp] theorem pop_stack (k : Fin 16) : (s.pop k).stack = s.stack := rfl
@[simp] theorem pop_ram (k : Fin 16) : (s.pop k).ram = s.ram := rfl
@[simp] theorem pop_dt (k : Fin 16) : (s.pop k).dt = s.dt := rfl
@[simp] theorem pop_st (k : Fin 16) : (s.pop k).st = s.st := rfl
@[simp] theorem pop_fb (k : Fin 16) : (s.pop k).fb = s.fb := rfl
@[simp] theorem pop_diag (k : Fin 16) : (s.pop k).diag = s.diag := rfl
@[simp] theorem pop_display (k : Fin 16) : (s.pop k).display = s.display := rfl
@[simp] theorem pop_draws (k : Fin 16) : (s.pop k).draws = s.draws := rfl
@[simp] theorem pop_reg (k : Fin 16) (r : Reg) : (s.pop k).reg r = s.reg r := rfl
@[simp] theorem pop_ramByte (k : Fin 16) (a : Nat) : (s.pop k).ramByte a = s.ramByte a := rfl
@[simp] theorem pop_pixel (k : Fin 16) (p : Nat) : (s.pop k).pixel p = s.pixel p := rfl

/-! ### `emitDiag` -/

@[simp] theorem emitDiag_cfg (d : DiagRecord) : (s.emitDiag d).cfg = s.cfg := rfl
@[simp] theorem emitDiag_v (d : DiagRecord) : (s.emitDiag d).v = s.v := rfl
@[simp] theorem emitDiag_idx (d : DiagRecord) : (s.emitDiag d).idx = s.idx := rfl
@[simp] theorem emitDiag_ca (d : DiagRecord) : (s.emitDiag d).ca = s.ca := rfl
@[simp] theorem emitDiag_sp (d : DiagRecord) : (s.emitDiag d).sp = s.sp := rfl
@[simp] theorem emitDiag_stack (d : DiagRecord) : (s.emitDiag d).stack = s.stack := rfl
@[simp] theorem emitDiag_ram (d : DiagRecord) : (s.emitDiag d).ram = s.ram := rfl
@[simp] theorem emitDiag_dt (d : DiagRecord) : (s.emitDiag d).dt = s.dt := rfl
@[simp] theorem emitDiag_st (d : DiagRecord) : (s.emitDiag d).st = s.st := rfl
@[simp] theorem emitDiag_fb (d : DiagRecord) : (s.emitDiag d).fb = s.fb := rfl
@[simp] theorem emitDiag_diag (d : DiagRecord) : (s.emitDiag d).diag = s.diag ++ [d] := rfl
@[simp] theorem emitDiag_display (d : DiagRecord) : (s.emitDiag d).display = s.display := rfl
@[simp] theorem emitDiag_draws (d : DiagRecord) : (s.emitDiag d).draws = s.draws := rfl
@[simp] theorem emitDiag_reg (d : DiagRecord) (r : Reg) : (s.emitDiag d).reg r = s.reg r := rfl
@[simp] theorem emitDiag_ramByte (d : DiagRecord) (a : Nat) : (s.emitDiag d).ramByte a = s.ramByte a := rfl
@[simp] theorem emitDiag_pixel (d : DiagRecord) (p : Nat) : (s.emitDiag d).pixel p = s.pixel p := rfl

/-! ### `emitDisplay` -/

@[simp] theorem emitDisplay_cfg (e : DisplayEvent) : (s.emitDisplay e).cfg = s.cfg := rfl
@[simp] theorem emitDisplay_v (e : DisplayEvent) : (s.emitDisplay e).v = s.v := rfl
@[simp] theorem emitDisplay_idx (e : DisplayEvent) : (s.emitDisplay e).idx = s.idx := rfl
@[simp] theorem emitDisplay_ca (e : DisplayEvent) : (s.emitDisplay e).ca = s.ca := rfl
@[simp] theorem emitDisplay_sp (e : DisplayEvent) : (s.emitDisplay e).sp = s.sp := rfl
@[simp] theorem emitDisplay_stack (e : DisplayEvent) : (s.emitDisplay e).stack = s.stack := rfl
@[simp] theorem emitDisplay_ram (e : DisplayEvent) : (s.emitDisplay e).ram = s.ram := rfl
@[simp] theorem emitDisplay_dt (e : DisplayEvent) : (s.emitDisplay e).dt = s.dt := rfl
@[simp] theorem emitDisplay_st (e : DisplayEvent) : (s.emitDisplay e).st = s.st := rfl
@[simp] theorem emitDisplay_fb (e : DisplayEvent) : (s.emitDisplay e).fb = s.fb := rfl
@[simp] theorem emitDisplay_diag (e : DisplayEvent) : (s.emitDisplay e).diag = s.diag := rfl
@[simp] theorem emitDisplay_display (e : DisplayEvent) : (s.emitDisplay e).display = s.display ++ [e] := rfl
@[simp] theorem emitDisplay_draws (e : DisplayEvent) : (s.emitDisplay e).draws = s.draws := rfl
@[simp] theorem emitDisplay_reg (e : DisplayEvent) (r : Reg) : (s.emitDisplay e).reg r = s.reg r := rfl
@[simp] theorem emitDisplay_ramByte (e : DisplayEvent) (a : Nat) : (s.emitDisplay e).ramByte a = s.ramByte a := rfl
@[simp] theorem emitDisplay_pixel (e : DisplayEvent) (p : Nat) : (s.emitDisplay e).pixel p = s.pixel p := rfl

/-! ### `clearFb` -/

@[simp] theorem clearFb_cfg : (s.clearFb).cfg = s.cfg := rfl
@[simp] theorem clearFb_v : (s.clearFb).v = s.v := rfl
@[simp] theorem clearFb_idx : (s.clearFb).idx = s.idx := rfl
@[simp] theorem clearFb_ca : (s.clearFb).ca = s.ca := rfl
@[simp] theorem clearFb_sp : (s.clearFb).sp = s.sp := rfl
@[simp] theorem clearFb_stack : (s.clearFb).stack = s.stack := rfl
@[simp] theorem clearFb_ram : (s.clearFb).ram = s.ram := rfl
@[simp] theorem clearFb_dt : (s.clearFb).dt = s.dt := rfl
@[simp] theorem clearFb_st : (s.clearFb).st = s.st := rfl
@[simp] theorem clearFb_fb : (s.clearFb).fb = [] := rfl
@[simp] theorem clearFb_diag : (s.clearFb).diag = s.diag := rfl
@[simp] theorem clearFb_display : (s.clearFb).display = s.display := rfl
@[simp] theorem clearFb_draws : (s.clearFb).draws = s.draws := rfl
@[simp] theorem clearFb_reg (r : Reg) : (s.clearFb).reg r = s.reg r := rfl
@[simp] theorem clearFb_ramByte (a : Nat) : (s.clearFb).ramByte a = s.ramByte a := rfl

/-! ### `drawn` -/

@[simp] theorem drawn_cfg : (s.drawn).cfg = s.cfg := rfl
@[simp] theorem drawn_v : (s.drawn).v = s.v := rfl
@[simp] theorem drawn_idx : (s.drawn).idx = s.idx := rfl
@[simp] theorem drawn_ca : (s.drawn).ca = s.ca := rfl
@[simp] theorem drawn_sp : (s.drawn).sp = s.sp := rfl
@[simp] theorem drawn_stack : (s.drawn).stack = s.stack := rfl
@[simp] theorem drawn_ram : (s.drawn).ram = s.ram := rfl
@[simp] theorem drawn_dt : (s.drawn).dt = s.dt := rfl
@[simp] theorem drawn_st : (s.drawn).st = s.st := rfl
@[simp] theorem drawn_fb : (s.drawn).fb = s.fb := rfl
@[simp] theorem drawn_diag : (s.drawn).diag = s.diag := rfl
@[simp] theorem drawn_display : (s.drawn).display = s.display := rfl
@[simp] theorem drawn_draws : (s.drawn).draws = s.draws + 1 := rfl
@[simp] theorem drawn_reg (r : Reg) : (s.drawn).reg r = s.reg r := rfl
@[simp] theorem drawn_ramByte (a : Nat) : (s.drawn).ramByte a = s.ramByte a := rfl
@[simp] theorem drawn_pixel (p : Nat) : (s.drawn).pixel p = s.pixel p := rfl

/-! ### The accessors at the part an update writes -/

theorem setReg_reg (x r : Reg) (b : Byte) : (s.setReg x b).reg r = if r = x then b else s.reg r := by
  simp only [State.reg, State.setReg, Fin.getElem_fin, Vector.getElem_set, Fin.ext_iff]
  simp only [eq_comm]

@[simp] theorem setReg_reg_same (x : Reg) (b : Byte) : (s.setReg x b).reg x = b := by simp [setReg_reg]

theorem setReg_reg_ne {x r : Reg} (b : Byte) (h : r ≠ x) : (s.setReg x b).reg r = s.reg r := by simp [setReg_reg, h]

@[simp] theorem setRam_ramByte (m : Memory) (a : Nat) : (s.setRam m).ramByte a = Memory.read m a := rfl

@[simp] theorem clearFb_pixel (p : Nat) : s.clearFb.pixel p = 0 := rfl

theorem push_entry (k j : Fin 16) (w : Word) : (s.push k w).stack[j] = if j = k then w else s.stack[j] := by
  simp only [State.push, Fin.getElem_fin, Vector.getElem_set, Fin.ext_iff]
  simp only [eq_comm]

theorem loadRegs_getElem (bs : List Byte) (v : Vector Byte 16) (k j : Nat) (hj : j < 16) :
    (loadRegs v k bs)[j] = if h : k ≤ j ∧ j < k + bs.length then bs[j - k]'(by omega) else v[j] := by
  induction bs generalizing v k with
  | nil => simp [loadRegs]
  | cons b bs ih =>
    rw [loadRegs, ih, Vector.getElem_setIfInBounds]
    by_cases hkj : k = j
    · subst hkj; simp
    · by_cases h : k + 1 ≤ j ∧ j < k + 1 + bs.length
      · have h' : k ≤ j ∧ j < k + (b :: bs).length := by simp; omega
        rw [dif_pos h, dif_pos h']
        have : j - k = (j - (k + 1)) + 1 := by omega
        simp [this]
      · have h' : ¬ (k ≤ j ∧ j < k + (b :: bs).length) := by simp; omega
        rw [dif_neg h, dif_neg h', if_neg hkj]

theorem setRegs_reg (bs : List Byte) (r : Reg) :
    (s.setRegs bs).reg r = if h : r.val < bs.length then bs[r.val] else s.reg r := by
  simp [State.reg, State.setRegs, loadRegs_getElem]

end Sys2Proof.Machine
end

