-- ==== Sys2Proof/Laws/Ops.lean ====
section
/-! SUPPORT. One spec lemma per shared operation: what it does, and, as a frame, everything it can change. -/

namespace Sys2Proof.Machine

/-! ## Frames of the updates -/

theorem Frame.refl (c : Part → Prop) (s : State) : Frame c s s := fun p _ => by cases p <;> rfl

theorem Frame.trans {c : Part → Prop} {s t u : State} (h : Frame c s t) (h' : Frame c t u) : Frame c s u := fun p hp => by
  have a := h p hp
  have b := h' p hp
  cases p <;> exact Eq.trans b a

theorem Frame.mono {c d : Part → Prop} {s t : State} (hcd : ∀ p, c p → d p) (h : Frame c s t) : Frame d s t :=
  fun p hp => h p fun hc => hp (hcd p hc)

section Updates

variable {c : Part → Prop} (s : State)

theorem frame_setCa (w : Word) : Frame c s (s.setCa w) := fun p _ => by cases p <;> rfl

theorem frame_setReg {x : Reg} (b : Byte) (h : c (.reg x)) : Frame c s (s.setReg x b) := fun p hp => by
  cases p with
  | reg r => exact setReg_reg_ne s b fun e => hp (e ▸ h)
  | _ => rfl

theorem frame_setRegs (bs : List Byte) (h : ∀ r : Reg, r.val < bs.length → c (.reg r)) : Frame c s (s.setRegs bs) := fun p hp => by
  cases p with
  | reg r => exact (setRegs_reg s bs r).trans (dif_neg fun hr => hp (h r hr))
  | _ => rfl

theorem frame_setIdx (w : Word) (h : c .idx) : Frame c s (s.setIdx w) := fun p hp => by
  cases p with
  | idx => exact absurd h hp
  | _ => rfl

theorem frame_setDt (b : Byte) (h : c .dt) : Frame c s (s.setDt b) := fun p hp => by
  cases p with
  | dt => exact absurd h hp
  | _ => rfl

theorem frame_setSt (b : Byte) (h : c .st) : Frame c s (s.setSt b) := fun p hp => by
  cases p with
  | st => exact absurd h hp
  | _ => rfl

theorem frame_push {k : Fin 16} (w : Word) (hk : c (.entry k)) (hs : c .sp) : Frame c s (s.push k w) := fun p hp => by
  cases p with
  | sp => exact absurd hs hp
  | entry j => exact (push_entry s k j w).trans (if_neg fun e => hp (by rw [e]; exact hk))
  | _ => rfl

theorem frame_pop (k : Fin 16) (h : c .sp) : Frame c s (s.pop k) := fun p hp => by
  cases p with
  | sp => exact absurd h hp
  | _ => rfl

theorem frame_emitDiag (r : DiagRecord) (h : c .diag) : Frame c s (s.emitDiag r) := fun p hp => by
  cases p with
  | diag => exact absurd h hp
  | _ => rfl

theorem frame_emitDisplay (e : DisplayEvent) (h : c .display) : Frame c s (s.emitDisplay e) := fun p hp => by
  cases p with
  | display => exact absurd h hp
  | _ => rfl

theorem frame_clearFb (h : ∀ p, c (.pixel p)) : Frame c s s.clearFb := fun p hp => by
  cases p with
  | pixel q => exact absurd (h q) hp
  | _ => rfl

theorem frame_drawn (h : c .draws) : Frame c s s.drawn := fun p hp => by
  cases p with
  | draws => exact absurd h hp
  | _ => rfl

/-- A block of stores changes the bytes `a`, `a + 1`, … it stores to, and nothing else. -/
theorem frame_storeBytes (a : Nat) (bs : List Byte) (h : ∀ k, k < bs.length → c (.byte (a + k))) :
    Frame c s (s.setRam (Memory.writeBytes s.ram a bs)) := fun p hp => by
  cases p with
  | byte b =>
    refine (MemoryLaws.read_writeBytes bs s.ram a b).trans (dif_neg fun hb => hp ?_)
    have := h (b - a) (by omega)
    rwa [show a + (b - a) = b by omega] at this
  | _ => rfl

/-! ## The advances and the reject path -/

@[simp] theorem advance_ca : (advance s).ca = s.ca + 2 := rfl

@[simp] theorem skipNext_ca : (skipNext s).ca = s.ca + 4 := rfl

theorem advanceSkipIf_ca (b : Bool) : (advanceSkipIf b s).ca = if b = true then s.ca + 4 else s.ca + 2 := by
  cases b <;> rfl

theorem frame_advance : Frame c s (advance s) := frame_setCa s _

theorem frame_advanceSkipIf (b : Bool) : Frame c s (advanceSkipIf b s) := by
  cases b
  · exact frame_setCa s _
  · exact frame_setCa s _

@[simp] theorem rejectWith_ca (k : DiagKind) (b : Option (Byte × Byte)) : (rejectWith k b s).ca = s.ca + 2 := rfl

@[simp] theorem rejectWith_diag (k : DiagKind) (b : Option (Byte × Byte)) :
    (rejectWith k b s).diag = s.diag ++ [{ kind := k, addr := s.ca, bytes := b }] := rfl

theorem frame_rejectWith (k : DiagKind) (b : Option (Byte × Byte)) (h : c .diag) : Frame c s (rejectWith k b s) :=
  (frame_emitDiag s _ h).trans (frame_setCa _ _)

theorem frame_reject (k : DiagKind) (i : Instr) (h : c .diag) : Frame c s (reject k i s) := frame_rejectWith s k _ h

/-! ## Jumps, flags, the random load -/

/-- A jump is rejected with the kind its table row names, or goes to its target. -/
theorem jumpTo_eq (i : Instr) (target : Nat) :
    jumpTo i target s =
      match jumpDiagnostic target s with
      | some k => reject k i s
      | none => s.setCa (BitVec.ofNat 16 target) := by
  unfold jumpTo jumpDiagnostic
  split
  · rfl
  · split <;> rfl

theorem frame_jumpTo (i : Instr) (target : Nat) (h : c .diag) : Frame c s (jumpTo i target s) := by
  rw [jumpTo_eq]
  cases jumpDiagnostic target s with
  | none => exact frame_setCa s _
  | some k => exact frame_reject s k i h

@[simp] theorem writeResultThenFlag_ca (x : Reg) (r f : Byte) : (writeResultThenFlag x r f s).ca = s.ca + 2 := rfl

/-- The flag stands last: `VF` ends as the flag, whatever `x` is (R160). -/
theorem writeResultThenFlag_reg (x : Reg) (r f : Byte) (q : Reg) :
    (writeResultThenFlag x r f s).reg q = if q = regVF then f else if q = x then r else s.reg q := by
  simp only [writeResultThenFlag, advance, setCa_reg, setReg_reg]

theorem frame_writeResultThenFlag {x : Reg} (r f : Byte) (hx : c (.reg x)) (hf : c (.reg regVF)) :
    Frame c s (writeResultThenFlag x r f s) :=
  ((frame_setReg s r hx).trans (frame_setReg _ f hf)).trans (frame_setCa _ _)

theorem writeIndexFlag_reg (sum : Nat) (q : Reg) :
    (writeIndexFlag sum s).reg q =
      if q = regVF then
        if s.cfg.addrCeiling < sum then 1 else if s.cfg.fx1eClearsVF = true then 0 else s.reg regVF
      else s.reg q := by
  unfold writeIndexFlag
  by_cases hq : q = regVF
  · subst hq; split
    · simp
    · split <;> simp
  · split
    · simp [setReg_reg, hq]
    · split <;> simp [setReg_reg, hq]

theorem frame_writeIndexFlag (sum : Nat) (h : c (.reg regVF)) : Frame c s (writeIndexFlag sum s) := by
  unfold writeIndexFlag
  split
  · exact frame_setReg s _ h
  · split
    · exact frame_setReg s _ h
    · exact Frame.refl c s

@[simp] theorem writeIndexFlag_ca (sum : Nat) : (writeIndexFlag sum s).ca = s.ca := by
  unfold writeIndexFlag
  split
  · rfl
  · split <;> rfl

@[simp] theorem writeIndexFlag_idx (sum : Nat) : (writeIndexFlag sum s).idx = s.idx := by
  unfold writeIndexFlag
  split
  · rfl
  · split <;> rfl

theorem frame_loadMasked {x : Reg} (r kk : Byte) (h : c (.reg x)) : Frame c s (loadMasked r x kk s) :=
  (frame_setReg s _ h).trans (frame_setCa _ _)

/-! ## Blocks -/

theorem blockBase_eq : blockBase s = s.idx.toNat := rfl

theorem blockFits_iff (x : Reg) : blockFits x s = true ↔ s.idx.toNat + x.val < s.cfg.memSize := decide_eq_true_iff

@[simp] theorem blockRegs_length (x : Reg) : (blockRegs x s).length = x.val + 1 := by
  simp [blockRegs]

theorem blockRegs_getElem (x : Reg) (k : Nat) (h : k < (blockRegs x s).length) :
    (blockRegs x s)[k] = s.reg ⟨k, by rw [blockRegs_length] at h; omega⟩ := by
  simp [blockRegs, State.reg]

@[simp] theorem blockBytes_length (x : Reg) : (blockBytes x s).length = x.val + 1 := by simp [blockBytes]

theorem blockBytes_getElem (x : Reg) (k : Nat) (h : k < (blockBytes x s).length) :
    (blockBytes x s)[k] = s.ramByte (s.idx.toNat + k) := by
  simp [blockBytes, State.ramByte, blockBase]

/-! ## The stack -/

theorem freeEntry_none_iff : s.freeEntry = none ↔ s.sp.val = 16 := by
  unfold State.freeEntry
  split
  · simp; omega
  · simp; omega

theorem freeEntry_some_iff (k : Fin 16) : s.freeEntry = some k ↔ s.sp.val = k.val := by
  unfold State.freeEntry
  split
  · simp [Fin.ext_iff]
  · simp; omega

theorem topEntry_none_iff : s.topEntry = none ↔ s.sp.val = 0 := by
  unfold State.topEntry
  split <;> simp_all

theorem topEntry_some_iff (k : Fin 16) : s.topEntry = some k ↔ s.sp.val = k.val + 1 := by
  unfold State.topEntry
  split
  · simp; omega
  · simp [Fin.ext_iff]; omega

/-! ## The fetch -/

theorem fetch_none_iff : s.fetch = none ↔ s.cfg.memSize ≤ s.ca.toNat + 1 := by
  simp [State.fetch, State.fetchable]

theorem fetch_some_iff (p : Byte × Byte) :
    s.fetch = some p ↔ s.ca.toNat + 1 < s.cfg.memSize ∧ p = (s.ramByte s.ca.toNat, s.ramByte (s.ca.toNat + 1)) := by
  simp [State.fetch, State.fetchable, eq_comm]

/-- A word placed at `a` reads back, high byte first. -/
theorem placeWord_ramByte (a w : Word) (b : Nat) :
    (s.placeWord a w).ramByte b =
      if b = a.toNat then byteHi w else if b = a.toNat + 1 then byteLo w else s.ramByte b := by
  rw [State.placeWord, setRam_ramByte, Memory.writeBytes, Memory.writeBytes, Memory.writeBytes, MemoryLaws.read_write,
    MemoryLaws.read_write]
  by_cases h : b = a.toNat + 1
  · simp [h]
  · simp only [h, if_false]; rfl

@[simp] theorem placeWord_ca (a w : Word) : (s.placeWord a w).ca = s.ca := rfl

@[simp] theorem placeWord_cfg (a w : Word) : (s.placeWord a w).cfg = s.cfg := rfl

/-- Where two bytes exist at `ca`, or at `PROG_BASE`, the next fetch after `withFetchWord` reads the two bytes of the word. -/
theorem withFetchWord_fetch (nbits w : Nat) (h : s.cfg.wf = true) :
    (s.withFetchWord nbits w).fetch = some (byteHi (tableWord nbits w), byteLo (tableWord nbits w)) := by
  have hm : 0x202 ≤ s.cfg.memSize := by
    simp only [Config.wf, Bool.and_eq_true, decide_eq_true_eq] at h; exact h.1
  unfold State.withFetchWord
  split
  · rename_i hf
    simp only [State.fetchable, decide_eq_true_eq] at hf
    rw [fetch_some_iff]
    refine ⟨hf, ?_⟩
    simp [placeWord_ramByte]
  · rw [fetch_some_iff]
    refine ⟨?_, by simp [placeWord_ramByte]⟩
    show 0x200 + 1 < s.cfg.memSize
    omega

/-! ## The step -/

/-- Everything a step can do: the fetch out of range, an ILLEGAL word, or the decoded instruction. -/
theorem step_next_cases {s t : State} (h : step s = .next t) :
    (s.cfg.memSize ≤ s.ca.toNat + 1 ∧ t = fetchOutOfRange s) ∨
    (s.ca.toNat + 1 < s.cfg.memSize ∧
      ((∃ e, decode s.cfg (s.ramByte s.ca.toNat) (s.ramByte (s.ca.toNat + 1)) = .error e ∧
          t = illegalWord (s.ramByte s.ca.toNat) (s.ramByte (s.ca.toNat + 1)) s) ∨
        ∃ i, decode s.cfg (s.ramByte s.ca.toNat) (s.ramByte (s.ca.toNat + 1)) = .ok i ∧ exec i s = .next t)) := by
  unfold step at h
  split at h
  · rename_i hf
    cases h
    exact .inl ⟨(fetch_none_iff s).1 hf, rfl⟩
  · rename_i b0 b1 hf
    obtain ⟨hlt, e⟩ := (fetch_some_iff s _).1 hf
    cases e
    refine .inr ⟨hlt, ?_⟩
    split at h
    · rename_i i hi
      exact .inr ⟨i, hi, h⟩
    · rename_i e he
      cases h
      exact .inl ⟨e, he, rfl⟩

/-! ## The host's moves -/

theorem load_unreadable : load .unreadable s = .error .sourceUnreadable := rfl

theorem load_tooLong (bytes : List Byte) (h : s.cfg.maxImage < bytes.length) : load (.image bytes) s = .error .sizeExceeded := if_pos h

theorem load_fits (bytes : List Byte) (h : bytes.length ≤ s.cfg.maxImage) : load (.image bytes) s = .ok (loadImage bytes s) :=
  if_neg (Nat.not_lt.2 h)

/-- An accepted load is of an image that fits, and its result is `loadImage`. -/
theorem load_ok {src : LoadSource} {s t : State} (h : load src s = .ok t) :
    ∃ bytes, src = .image bytes ∧ bytes.length ≤ s.cfg.maxImage ∧ t = loadImage bytes s := by
  cases src with
  | unreadable => rw [load_unreadable] at h; exact nomatch h
  | image bytes =>
    by_cases hb : s.cfg.maxImage < bytes.length
    · rw [load_tooLong s bytes hb] at h; exact nomatch h
    · rw [load_fits s bytes (Nat.not_lt.1 hb), Except.ok.injEq] at h
      exact ⟨bytes, rfl, Nat.not_lt.1 hb, h.symm⟩

/-- Every byte after an accepted load: the image's from `PROG_BASE` on, the others as before. -/
theorem loadImage_ramByte (bytes : List Byte) (a : Nat) :
    (loadImage bytes s).ramByte a =
      if h : Config.progBase ≤ a ∧ a < Config.progBase + bytes.length then bytes[a - Config.progBase]'(by omega) else s.ramByte a :=
  MemoryLaws.read_writeBytes ..

theorem frame_loadImage (bytes : List Byte)
    (h : ∀ k, k < bytes.length → c (.byte (Config.progBase + k))) (hp : ∀ p, c (.pixel p)) (hd : c .display) :
    Frame c s (loadImage bytes s) :=
  Frame.trans (Frame.trans (Frame.trans (frame_storeBytes s _ _ h) (frame_clearFb _ hp)) (frame_emitDisplay _ _ hd)) (frame_emitDisplay _ _ hd)

theorem countDown_toNat (b : Byte) : (countDown b).toNat = b.toNat - 1 := by
  unfold countDown
  split
  · subst_vars; rfl
  · bv_omega

theorem frame_tick (hd : c .dt) (hs : c .st) : Frame c s (tick s) := Frame.trans (frame_setDt s _ hd) (frame_setSt _ _ hs)

end Updates

end Sys2Proof.Machine
end

