-- ==== Sys2Proof/Laws/PerInstr.lean ====
section
/-! SUPPORT. Families of lemmas over the constructors of Instr. -/

namespace Sys2Proof.Laws.OpcodeRowOfWord

/-- An instruction's word selects the instruction's row of the opcode map: the fixed bits of the pattern are the table's (R86). -/
def Statement (i : Instr) : Prop := i.row.selects (encodeWord i) = true

theorem selects_NNN (c : Nibble) (nnn : Imm12) (st : RowStatus) :
    OpcodeRow.selects ⟨c ++ 0#12, 0xF#4 ++ 0#12, st⟩ (wordNNN c nnn) = true := by
  have : (c ++ nnn) &&& (0xF#4 ++ 0#12) = c ++ 0#12 := by
    rw [BitVec.and_append, BitVec.and_zero, show (0xF#4 : BitVec 4) = BitVec.allOnes 4 from rfl, BitVec.and_allOnes]
  exact beq_iff_eq.2 this

theorem selects_XKK (c : Nibble) (x : Reg) (kk : Byte) (st : RowStatus) :
    OpcodeRow.selects ⟨c ++ 0#12, 0xF#4 ++ 0#12, st⟩ (wordXKK c x kk) = true := selects_NNN c (regBits x ++ kk) st

theorem selects_XYZ (c : Nibble) (x y : Reg) (n : Nibble) (st : RowStatus) :
    OpcodeRow.selects ⟨c ++ 0#12, 0xF#4 ++ 0#12, st⟩ (wordXYN c x y n) = true := selects_NNN c (regBits x ++ (regBits y ++ n)) st

theorem selects_XSS (c : Nibble) (x : Reg) (kk : Byte) (st : RowStatus) :
    OpcodeRow.selects ⟨c ++ (0#4 ++ kk), 0xF#4 ++ (0#4 ++ 0xFF#8), st⟩ (wordXKK c x kk) = true := by
  have : (c ++ (regBits x ++ kk)) &&& (0xF#4 ++ (0#4 ++ 0xFF#8)) = c ++ (0#4 ++ kk) := by
    rw [BitVec.and_append, BitVec.and_append, BitVec.and_zero, show (0xF#4 : BitVec 4) = BitVec.allOnes 4 from rfl, BitVec.and_allOnes,
      show (0xFF#8 : BitVec 8) = BitVec.allOnes 8 from rfl, BitVec.and_allOnes]
  exact beq_iff_eq.2 this

theorem selects_XYN (c : Nibble) (x y : Reg) (n : Nibble) (st : RowStatus) :
    OpcodeRow.selects ⟨c ++ (0#4 ++ (0#4 ++ n)), 0xF#4 ++ (0#4 ++ (0#4 ++ 0xF#4)), st⟩ (wordXYN c x y n) = true := by
  have : (c ++ (regBits x ++ (regBits y ++ n))) &&& (0xF#4 ++ (0#4 ++ (0#4 ++ 0xF#4))) = c ++ (0#4 ++ (0#4 ++ n)) := by
    rw [BitVec.and_append, BitVec.and_append, BitVec.and_append, BitVec.and_zero, BitVec.and_zero,
      show (0xF#4 : BitVec 4) = BitVec.allOnes 4 from rfl, BitVec.and_allOnes, BitVec.and_allOnes]
  exact beq_iff_eq.2 this

theorem cls : Statement .cls := rfl

theorem ret : Statement .ret := rfl

theorem jp (nnn : Imm12) : Statement (.jp nnn) := selects_NNN 0x1 nnn .exec

theorem call (nnn : Imm12) : Statement (.call nnn) := selects_NNN 0x2 nnn .exec

theorem seVxKk (x : Reg) (kk : Byte) : Statement (.seVxKk x kk) := selects_XKK 0x3 x kk .exec

theorem sneVxKk (x : Reg) (kk : Byte) : Statement (.sneVxKk x kk) := selects_XKK 0x4 x kk .exec

theorem seVxVy (x y : Reg) : Statement (.seVxVy x y) := selects_XYN 0x5 x y 0x0 .exec

theorem ldVxKk (x : Reg) (kk : Byte) : Statement (.ldVxKk x kk) := selects_XKK 0x6 x kk .exec

theorem addVxKk (x : Reg) (kk : Byte) : Statement (.addVxKk x kk) := selects_XKK 0x7 x kk .exec

theorem ldVxVy (x y : Reg) : Statement (.ldVxVy x y) := selects_XYN 0x8 x y 0x0 .exec

theorem orVxVy (x y : Reg) : Statement (.orVxVy x y) := selects_XYN 0x8 x y 0x1 .exec

theorem andVxVy (x y : Reg) : Statement (.andVxVy x y) := selects_XYN 0x8 x y 0x2 .exec

theorem xorVxVy (x y : Reg) : Statement (.xorVxVy x y) := selects_XYN 0x8 x y 0x3 .exec

theorem addVxVy (x y : Reg) : Statement (.addVxVy x y) := selects_XYN 0x8 x y 0x4 .exec

theorem subVxVy (x y : Reg) : Statement (.subVxVy x y) := selects_XYN 0x8 x y 0x5 .exec

theorem shrVx (x y : Reg) : Statement (.shrVx x y) := selects_XYN 0x8 x y 0x6 .exec

theorem subnVxVy (x y : Reg) : Statement (.subnVxVy x y) := selects_XYN 0x8 x y 0x7 .exec

theorem shlVx (x y : Reg) : Statement (.shlVx x y) := selects_XYN 0x8 x y 0xE .exec

theorem sneVxVy (x y : Reg) (n : Nibble) : Statement (.sneVxVy x y n) := selects_XYZ 0x9 x y n .exec

theorem ldINnn (nnn : Imm12) : Statement (.ldINnn nnn) := selects_NNN 0xA nnn .exec

theorem jpV0Nnn (nnn : Imm12) : Statement (.jpV0Nnn nnn) := selects_NNN 0xB nnn .exec

theorem rndVxKk (x : Reg) (kk : Byte) : Statement (.rndVxKk x kk) := selects_XKK 0xC x kk .exec

theorem drwVxVyN (x y : Reg) (n : Nibble) : Statement (.drwVxVyN x y n) := selects_XYZ 0xD x y n .stub

theorem skpVx (x : Reg) : Statement (.skpVx x) := selects_XSS 0xE x 0x9E .stub

theorem sknpVx (x : Reg) : Statement (.sknpVx x) := selects_XSS 0xE x 0xA1 .stub

theorem ldVxDt (x : Reg) : Statement (.ldVxDt x) := selects_XSS 0xF x 0x07 .exec

theorem ldVxK (x : Reg) : Statement (.ldVxK x) := selects_XSS 0xF x 0x0A .stub

theorem ldDtVx (x : Reg) : Statement (.ldDtVx x) := selects_XSS 0xF x 0x15 .exec

theorem ldStVx (x : Reg) : Statement (.ldStVx x) := selects_XSS 0xF x 0x18 .exec

theorem addIVx (x : Reg) : Statement (.addIVx x) := selects_XSS 0xF x 0x1E .exec

theorem ldFVx (x : Reg) : Statement (.ldFVx x) := selects_XSS 0xF x 0x29 .stub

theorem ldBVx (x : Reg) : Statement (.ldBVx x) := selects_XSS 0xF x 0x33 .stub

theorem ldMemIVx (x : Reg) : Statement (.ldMemIVx x) := selects_XSS 0xF x 0x55 .exec

theorem ldVxMemI (x : Reg) : Statement (.ldVxMemI x) := selects_XSS 0xF x 0x65 .exec

end Sys2Proof.Laws.OpcodeRowOfWord
end

