-- ==== Sys2Proof/Tests/Slice0.lean ====
section
/-! SUPPORT. Small tests and witnesses. Expected results are those of 95_test_vectors.md (the vector is named) or the rule named; words are
written out from the patterns of R86. A witness shows a state that meets the hypotheses of the obligation it names. -/

namespace Sys2Proof.Tests

open Sys2Proof Sys2Proof.Machine

/-! ## Helpers -/

/-- The outcome is a next state with the property. -/
def nextSat (r : Result) (p : State → Bool) : Bool :=
  match r with
  | .next t => p t
  | .fault _ => false
  | .refused _ => false

/-- The reset machine with its `ca` at `a` and two bytes there. -/
def at_ (a : Word) (byte0 byte1 : Byte) : State :=
  (State.reset.setCa a).setRam (Memory.writeBytes [] a.toNat [byte0, byte1])

/-- The reset machine with a word at `0x200`. -/
def code (byte0 byte1 : Byte) : State := at_ 0x200 byte0 byte1

/-- The parameters with another memory size. -/
def sized (n : Nat) : Config := { memSize := n }

/-- The parameters with the trailing nibble of class 9 checked (D10). -/
def strict9 : Config := { class9ChecksN := true }

/-- One step ends with this `ca` and this list of records. -/
def stepTo (s : State) (ca : Word) (diag : List DiagRecord) : Bool :=
  nextSat (step s) fun t => t.ca == ca && t.diag == diag

/-- One step ends at `ca + 2` with no record, with `V[x] = a` and `VF = f`. -/
def stepReg (s : State) (x : Reg) (a f : Byte) : Bool :=
  nextSat (step s) fun t => t.ca == s.ca + 2 && t.diag == [] && t.reg x == a && t.reg 15 == f

/-- A record with bytes. -/
def rec2 (k : DiagKind) (a : Word) (byte0 byte1 : Byte) : DiagRecord := ⟨k, a, some (byte0, byte1)⟩

/-- Registers 1 and 2. -/
def with12 (a b : Byte) (s : State) : State := (s.setReg 1 a).setReg 2 b

/-! ## Well-formedness: the one check, and the term it refuses -/

theorem test_wellFormed_accepts_ignored_nibble : (Instr.sneVxVy 1 2 0xF).wellFormed Config.standard = true := by decide
theorem test_wellFormed_refuses_checked_nibble : (Instr.sneVxVy 1 2 0xF).wellFormed strict9 = false := by decide
theorem test_wellFormed_accepts_checked_zero : (Instr.sneVxVy 1 2 0x0).wellFormed strict9 = true := by decide

/-! ## Decoding: every pattern of R86, by a word written out from it -/

theorem test_decode_control_flow :
    decodeTableWord 16 0x00E0 = some .cls ∧ decodeTableWord 16 0x00EE = some .ret ∧
    decodeTableWord 16 0x1ABC = some (.jp 0xABC) ∧ decodeTableWord 16 0x2DEF = some (.call 0xDEF) ∧
    decodeTableWord 16 0x51E0 = some (.seVxVy 0x1 0xE) ∧ decodeTableWord 16 0x912F = some (.sneVxVy 0x1 0x2 0xF) ∧
    decodeTableWord 16 0xB307 = some (.jpV0Nnn 0x307) := by decide

theorem test_decode_immediate :
    decodeTableWord 16 0x3A5C = some (.seVxKk 0xA 0x5C) ∧ decodeTableWord 16 0x4311 = some (.sneVxKk 0x3 0x11) ∧
    decodeTableWord 16 0x6F10 = some (.ldVxKk 0xF 0x10) ∧ decodeTableWord 16 0x70FE = some (.addVxKk 0x0 0xFE) := by decide

theorem test_decode_alu :
    decodeTableWord 16 0x81D0 = some (.ldVxVy 0x1 0xD) ∧ decodeTableWord 16 0x81D1 = some (.orVxVy 0x1 0xD) ∧
    decodeTableWord 16 0x81D2 = some (.andVxVy 0x1 0xD) ∧ decodeTableWord 16 0x81D3 = some (.xorVxVy 0x1 0xD) ∧
    decodeTableWord 16 0x81D4 = some (.addVxVy 0x1 0xD) ∧ decodeTableWord 16 0x81D5 = some (.subVxVy 0x1 0xD) ∧
    decodeTableWord 16 0x81D6 = some (.shrVx 0x1 0xD) ∧ decodeTableWord 16 0x81D7 = some (.subnVxVy 0x1 0xD) ∧
    decodeTableWord 16 0x81DE = some (.shlVx 0x1 0xD) := by decide

theorem test_decode_memory_indirection :
    decodeTableWord 16 0xAFFF = some (.ldINnn 0xFFF) ∧ decodeTableWord 16 0xF21E = some (.addIVx 0x2) ∧
    decodeTableWord 16 0xFC55 = some (.ldMemIVx 0xC) ∧ decodeTableWord 16 0xF365 = some (.ldVxMemI 0x3) := by decide

theorem test_decode_deferred :
    decodeTableWord 16 0xD015 = some (.drwVxVyN 0x0 0x1 0x5) ∧ decodeTableWord 16 0xE19E = some (.skpVx 0x1) ∧
    decodeTableWord 16 0xE1A1 = some (.sknpVx 0x1) ∧ decodeTableWord 16 0xF10A = some (.ldVxK 0x1) ∧
    decodeTableWord 16 0xF129 = some (.ldFVx 0x1) ∧ decodeTableWord 16 0xF133 = some (.ldBVx 0x1) := by decide

theorem test_decode_random_and_timers :
    decodeTableWord 16 0xCC0F = some (.rndVxKk 0xC 0x0F) ∧ decodeTableWord 16 0xF307 = some (.ldVxDt 0x3) ∧
    decodeTableWord 16 0xF315 = some (.ldDtVx 0x3) ∧ decodeTableWord 16 0xF318 = some (.ldStVx 0x3) := by decide

/-- E5 to E7, E9 to E11: the ILLEGAL words. -/
theorem test_decode_illegal :
    decodeTableWord 16 0x0000 = none ∧ decodeTableWord 16 0x00E1 = none ∧ decodeTableWord 16 0x00FE = none ∧
    decodeTableWord 16 0x0EE0 = none ∧ decodeTableWord 16 0x0001 = none ∧ decodeTableWord 16 0x5AB1 = none ∧
    decodeTableWord 16 0x512F = none ∧ decodeTableWord 16 0x8128 = none ∧ decodeTableWord 16 0x812F = none ∧
    decodeTableWord 16 0xE19F = none ∧ decodeTableWord 16 0xE000 = none ∧ decodeTableWord 16 0xF100 = none ∧
    decodeTableWord 16 0xF106 = none ∧ decodeTableWord 16 0xF1FF = none := by decide

/-- D10 with `CLASS9_CHECKS_N`: the word is ILLEGAL. -/
theorem test_decode_class9_checked : decode strict9 0x91 0x2F = .error .illegalClass9 := by decide

/-! ## Control flow -/

/-- J9d. -/
theorem test_cls : nextSat (step (code 0x00 0xE0)) (fun t => t.ca == 0x202 && t.display == [.clear] && t.diag == []) = true := by decide

/-- J9, with the popped entry kept. -/
theorem test_ret :
    nextSat (step (((at_ 0x300 0x00 0xEE).push 0 0x200).push 1 0x20A))
      (fun t => t.sp == 1 && t.ca == 0x20C && t.stack[1] == 0x20A && t.diag == []) = true := by decide

/-- J9c. -/
theorem test_ret_empty : stepTo (code 0x00 0xEE) 0x202 [rec2 .stackUnderflow 0x200 0x00 0xEE] = true := by decide

/-- J1 and J3. -/
theorem test_jp : stepTo (code 0x1A 0xBC) 0xABC [] = true ∧ stepTo (code 0x12 0x01) 0x201 [] = true := by decide

/-- J2 and S8 (`MEM_SIZE` = 0x800). -/
theorem test_jp_guards :
    stepTo (code 0x12 0x00) 0x202 [rec2 .endlessLoop 0x200 0x12 0x00] = true ∧
    stepTo { code 0x19 0x00 with cfg := sized 0x800 } 0x202 [rec2 .jumpRange 0x200 0x19 0x00] = true := by decide

/-- J5, and J8: a self-call is performed. -/
theorem test_call :
    nextSat (step (code 0x22 0x06)) (fun t => t.stack[0] == 0x200 && t.sp == 1 && t.ca == 0x206 && t.diag == []) = true ∧
    nextSat (step (code 0x22 0x00)) (fun t => t.stack[0] == 0x200 && t.sp == 1 && t.ca == 0x200 && t.diag == []) = true := by decide

/-- J7. -/
theorem test_call_full :
    nextSat (step { code 0x2A 0xBC with sp := 16 })
      (fun t => t.sp == 16 && t.ca == 0x202 && t.stack == (code 0 0).stack && t.diag == [rec2 .stackOverflow 0x200 0x2A 0xBC]) = true := by decide

/-- J10, J11. -/
theorem test_seVxVy :
    stepTo (with12 7 7 (at_ 0x300 0x51 0x20)) 0x304 [] = true ∧ stepTo (with12 7 8 (at_ 0x300 0x51 0x20)) 0x302 [] = true := by decide

/-- J13: no skip decision. -/
theorem test_seVxVy_nibble : stepTo (with12 7 7 (code 0x51 0x21)) 0x202 [rec2 .illegal 0x200 0x51 0x21] = true := by decide

/-- J16, J15. -/
theorem test_sneVxVy :
    stepTo (with12 7 8 (at_ 0x300 0x91 0x2F)) 0x304 [] = true ∧ stepTo (with12 7 7 (at_ 0x300 0x91 0x20)) 0x302 [] = true := by decide

/-- J17, J18. -/
theorem test_jpV0 :
    stepTo ((code 0xB3 0x00).setReg 0 4) 0x304 [] = true ∧ stepTo (code 0xBF 0xFF) 0xFFF [] = true := by decide

/-- J20, J21. -/
theorem test_jpV0_guards :
    stepTo ((code 0xBF 0xFF).setReg 0 1) 0x202 [rec2 .jumpRange 0x200 0xBF 0xFF] = true ∧
    stepTo ((at_ 0x202 0xB2 0x00).setReg 0 2) 0x204 [rec2 .endlessLoop 0x202 0xB2 0x00] = true := by decide

/-! ## Immediate and compare -/

/-- M1, M2. -/
theorem test_seVxKk : stepTo (at_ 0x208 0x30 0x00) 0x20C [] = true ∧ stepTo (at_ 0x208 0x30 0x01) 0x20A [] = true := by decide

/-- M4, M5. -/
theorem test_sneVxKk :
    stepTo ((at_ 0x220 0x43 0x11).setReg 3 0x10) 0x224 [] = true ∧ stepTo ((at_ 0x220 0x43 0x10).setReg 3 0x10) 0x222 [] = true := by decide

/-- M6, M7. -/
theorem test_ldVxKk : stepReg (code 0x6A 0x7F) 10 0x7F 0 = true ∧ stepReg (code 0x6F 0xFF) 15 0xFF 0xFF = true := by decide

/-- M8, M10. -/
theorem test_addVxKk :
    stepReg ((code 0x70 0x10).setReg 0 0xF1) 0 0x01 0 = true ∧ stepReg ((code 0x7F 0xFF).setReg 15 1) 15 0 0 = true := by decide

/-! ## Arithmetic and logic -/

/-- A20. -/
theorem test_ldVxVy : stepReg ((with12 0 0x5A (code 0x81 0x20)).setReg 15 7) 1 0x5A 7 = true := by decide

/-- A21, A24. -/
theorem test_orVxVy :
    stepReg ((with12 0xF0 0x0F (code 0x81 0x21)).setReg 15 7) 1 0xFF 7 = true ∧
    stepReg ((with12 0 0x80 (code 0x8F 0x21)).setReg 15 1) 15 0x81 0x81 = true := by decide

/-- A22. -/
theorem test_andVxVy : stepReg ((with12 0xF3 0x3C (code 0x81 0x22)).setReg 15 7) 1 0x30 7 = true := by decide

/-- A23. -/
theorem test_xorVxVy : stepReg ((with12 0xFF 0x0F (code 0x81 0x23)).setReg 15 7) 1 0xF0 7 = true := by decide

/-- A1 to A4. -/
theorem test_addVxVy :
    stepReg (with12 0xFF 0x01 (code 0x81 0x24)) 1 0x00 1 = true ∧ stepReg (with12 0xFF 0xFF (code 0x81 0x24)) 1 0xFE 1 = true ∧
    stepReg (with12 0x80 0x7F (code 0x81 0x24)) 1 0xFF 0 = true ∧
    stepReg ((with12 0 0 (code 0x81 0x24)).setReg 15 1) 1 0 0 = true := by decide

/-- A13 (the sharper case), A15. -/
theorem test_addVxVy_flag_register :
    stepReg ((with12 1 0 (code 0x8F 0x14)).setReg 15 5) 1 1 0 = true ∧
    stepReg ((with12 0xFF 0 (code 0x81 0xF4)).setReg 15 1) 1 0x00 1 = true := by decide

/-- A5, A6, A7. -/
theorem test_subVxVy :
    stepReg (with12 0x10 0x20 (code 0x81 0x25)) 1 0xF0 0 = true ∧ stepReg (with12 0x20 0x20 (code 0x81 0x25)) 1 0x00 1 = true ∧
    stepReg (with12 0x00 0x01 (code 0x81 0x25)) 1 0xFF 0 = true := by decide

/-- A16. -/
theorem test_subVxVy_flag_register :
    stepReg ((code 0x8F 0xF5).setReg 15 9) 15 1 1 = true ∧ stepReg ((with12 0 0 (code 0x81 0xF5)).setReg 15 1) 1 0xFF 0 = true := by decide

/-- A11, A26. -/
theorem test_shrVx :
    stepReg (with12 0xFE 0 (code 0x81 0x26)) 1 0x7F 0 = true ∧ stepReg (with12 0x05 0xF0 (code 0x81 0x26)) 1 0x02 1 = true := by decide

/-- A17. -/
theorem test_shrVx_flag_register : stepReg ((code 0x8F 0x06).setReg 15 3) 15 1 1 = true := by decide

/-- A9, A10. -/
theorem test_subnVxVy :
    stepReg (with12 0x20 0x10 (code 0x81 0x27)) 1 0xF0 0 = true ∧ stepReg (with12 0x10 0x10 (code 0x81 0x27)) 1 0x00 1 = true := by decide

/-- A19. -/
theorem test_subnVxVy_flag_register : stepReg ((with12 3 0 (code 0x8F 0x17)).setReg 15 5) 1 3 0 = true := by decide

/-- A12, A27. -/
theorem test_shlVx :
    stepReg (with12 0x7F 0 (code 0x81 0x2E)) 1 0xFE 0 = true ∧ stepReg (with12 0x81 0 (code 0x81 0x2E)) 1 0x02 1 = true := by decide

/-- A18. -/
theorem test_shlVx_flag_register :
    stepReg ((code 0x8F 0x0E).setReg 15 0x80) 15 1 1 = true ∧ stepReg ((code 0x8F 0x0E).setReg 15 0x40) 15 0 0 = true := by decide

/-- A28. -/
theorem test_illegal_alu :
    nextSat (step ((with12 0x7B 0 (code 0x81 0x28)).setReg 15 7))
      (fun t => t.ca == 0x202 && t.reg 1 == 0x7B && t.reg 15 == 7 && t.diag == [rec2 .illegal 0x200 0x81 0x28]) = true := by decide

/-! ## Index and memory -/

/-- X1. -/
theorem test_ldINnn : nextSat (step (code 0xAF 0xFF)) (fun t => t.idx == 0xFFF && t.ca == 0x202) = true := by decide

/-- X5, X6: the ceiling itself, and one above. -/
theorem test_addIVx_ceiling :
    nextSat (step ((with12 0 0xFF (code 0xF2 0x1E)).setIdx 0xF00)) (fun t => t.idx == 0xFFF && t.reg 15 == 0 && t.ca == 0x202) = true ∧
    nextSat (step ((with12 0 1 (code 0xF2 0x1E)).setIdx 0xFFF)) (fun t => t.idx == 0x1000 && t.reg 15 == 1 && t.ca == 0x202) = true := by decide

/-- X8, and X9: the addend is the old `VF`, which is not written. -/
theorem test_addIVx_corners :
    nextSat (step ((with12 0 2 (code 0xF2 0x1E)).setIdx 0xFFFF)) (fun t => t.idx == 0x0001 && t.reg 15 == 1) = true ∧
    nextSat (step (((code 0xFF 0x1E).setReg 15 5).setIdx 0x100)) (fun t => t.idx == 0x105 && t.reg 15 == 5) = true := by decide

/-- X10 (three registers), with the neighbours unwritten and `I` kept. -/
theorem test_ldMemIVx :
    nextSat (step (((with12 0x22 0x33 (code 0xF2 0x55)).setReg 0 0x11).setIdx 0x300))
      (fun t => t.ramByte 0x2FF == 0 && t.ramByte 0x300 == 0x11 && t.ramByte 0x301 == 0x22 && t.ramByte 0x302 == 0x33 &&
        t.ramByte 0x303 == 0 && t.idx == 0x300 && t.ca == 0x202) = true := by decide

/-- X13, X14: the last byte is written alone, and not as part of a block that does not fit. -/
theorem test_ldMemIVx_range :
    nextSat (step (((code 0xF0 0x55).setReg 0 0x5A).setIdx 0xFFF)) (fun t => t.ramByte 0xFFF == 0x5A && t.diag == []) = true ∧
    nextSat (step (((code 0xF1 0x55).setReg 0 0x5A).setIdx 0xFFF))
      (fun t => t.ramByte 0xFFF == 0 && t.ca == 0x202 && t.diag == [rec2 .memRange 0x200 0xF1 0x55]) = true := by decide

/-- X19 (its first three registers): the program reads its own code. -/
theorem test_ldVxMemI :
    nextSat (step ((code 0xFF 0x65).setIdx 0x200))
      (fun t => t.reg 0 == 0xFF && t.reg 1 == 0x65 && t.reg 2 == 0 && t.reg 15 == 0 && t.ca == 0x202) = true := by decide

/-- X22: the sum is exact. -/
theorem test_ldVxMemI_range :
    nextSat (step (((code 0xF0 0x65).setReg 0 0xAA).setIdx 0xFFFF))
      (fun t => t.reg 0 == 0xAA && t.diag == [rec2 .memRange 0x200 0xF0 0x65]) = true := by decide

/-! ## Placeholders: Z1 to Z6 -/

theorem test_placeholders :
    stepTo (code 0xD0 0x15) 0x202 [rec2 .notImplemented 0x200 0xD0 0x15] = true ∧
    stepTo (code 0xE1 0x9E) 0x202 [rec2 .notImplemented 0x200 0xE1 0x9E] = true ∧
    stepTo (code 0xE1 0xA1) 0x202 [rec2 .notImplemented 0x200 0xE1 0xA1] = true ∧
    stepTo (code 0xF1 0x0A) 0x202 [rec2 .notImplemented 0x200 0xF1 0x0A] = true ∧
    stepTo (code 0xF1 0x29) 0x202 [rec2 .notImplemented 0x200 0xF1 0x29] = true ∧
    stepTo (code 0xF1 0x33) 0x202 [rec2 .notImplemented 0x200 0xF1 0x33] = true := by decide

/-! ## Random byte and timers -/

/-- T1, T4: the delivered byte is an argument here, since nothing is known of the port's own. -/
theorem test_loadMasked :
    (loadMasked 0xB7 3 0x0F (code 0xC3 0x0F)).reg 3 = 0x07 ∧ (loadMasked 0xFF 15 0xAA (code 0xCF 0xAA)).reg 15 = 0xAA := by decide

/-- T3, with the byte counted as consumed. -/
theorem test_rndVxKk_consumes : nextSat (step (code 0xC3 0x00)) (fun t => t.draws == 1 && t.ca == 0x202) = true := by decide

/-- T5. -/
theorem test_ldVxDt : nextSat (step ((code 0xF3 0x07).setDt 0x2A)) (fun t => t.reg 3 == 0x2A && t.dt == 0x2A && t.ca == 0x202) = true := by decide

/-- T6. -/
theorem test_ldDtVx : nextSat (step ((code 0xF3 0x15).setReg 3 0x3C)) (fun t => t.dt == 0x3C && t.st == 0 && t.ca == 0x202) = true := by decide

/-- T7. -/
theorem test_ldStVx : nextSat (step ((code 0xF3 0x18).setReg 3 5)) (fun t => t.st == 5 && t.dt == 0 && t.ca == 0x202) = true := by decide

/-! ## Fetch, reset, host moves -/

/-- F1, F4: one record without bytes, and the wrap of `ca`. -/
theorem test_fetch_range :
    stepTo (State.reset.setCa 0xFFF) 0x1001 [⟨.fetchRange, 0xFFF, none⟩] = true ∧
    stepTo (State.reset.setCa 0xFFFF) 0x0001 [⟨.fetchRange, 0xFFFF, none⟩] = true := by decide

/-- F5, F6: the last fetchable address, and an odd one. -/
theorem test_fetch_edges :
    nextSat (step (at_ 0xFFE 0x60 0x07)) (fun t => t.reg 0 == 7 && t.ca == 0x1000 && t.diag == []) = true ∧
    nextSat (step (at_ 0x201 0x60 0x07)) (fun t => t.reg 0 == 7 && t.ca == 0x203 && t.diag == []) = true := by decide

/-- F8. -/
theorem test_reset_slides : stepTo State.reset 0x202 [rec2 .illegal 0x200 0x00 0x00] = true := by decide

/-- H5 (first and last tick), H6. -/
theorem test_tick :
    (tick (State.reset.setDt 2)).dt = 1 ∧ (tick State.reset).dt = 0 ∧ (tick (State.reset.setDt 0xFF)).dt = 0xFE ∧
    (tick (State.reset.setSt 1)).st = 0 := by decide

/-- H4 (a byte beyond the image is kept), with the two display events. -/
theorem test_load :
    nextSat (applyMove (.load (.image [0xAA, 0xBB])) (State.reset.setRam [(0x210, 0x99)]))
      (fun t => t.ram == [(0x200, 0xAA), (0x201, 0xBB), (0x210, 0x99)] && t.display == [.clear, .update []] && t.ca == 0x200) = true := by decide

/-- Memory stays canonical: writing 0 removes an entry, a lower address goes first. -/
theorem test_memory_canonical :
    Memory.write [(3, 5)] 3 0 = [] ∧ Memory.write [(3, 5)] 1 7 = [(1, 7), (3, 5)] ∧ Memory.write [(3, 5)] 3 9 = [(3, 9)] := by decide

/-- The word placed for the host is the one the next step runs. -/
theorem test_withFetchWord :
    nextSat (step (State.reset.withFetchWord 16 0x6A7F)) (fun t => t.reg 10 == 0x7F && t.ca == 0x202) = true := by decide

/-! ## Witnesses -/

theorem witness_DecodeOfEncodeIsIdentity :
    (Instr.sneVxVy 15 0 0xF).wellFormed Config.standard = true ∧ (Instr.sneVxVy 15 0 0).wellFormed strict9 = true := by decide

theorem witness_EncodeOfDecodeIsIdentity : decode Config.standard 0x9A 0xB1 = .ok (.sneVxVy 0xA 0xB 1) := by decide

theorem witness_DecoderFollowsOpcodeMap :
    decodeWord Config.standard 0xF365 = .ok (.ldVxMemI 3) ∧ (Instr.ldVxMemI 3).row ∈ opcodeMap ∧
    (Instr.ldVxMemI 3).row.selects 0xF365 = true := by decide

theorem witness_IllegalWordsAreTheListedOnes :
    decodeWord Config.standard 0x0FFF = .error .illegalClass0 ∧ decodeWord Config.standard 0x5001 = .error .illegalClass5 ∧
    decodeWord Config.standard 0x8008 = .error .illegalClass8 ∧ decodeWord Config.standard 0x800F = .error .illegalClass8 ∧
    decodeWord Config.standard 0xE09F = .error .illegalClassE ∧ decodeWord Config.standard 0xF066 = .error .illegalClassF := by decide

theorem witness_StepRunsDecodedInstruction :
    let s := at_ 0xFFE 0x60 0x07
    s.ca.toNat + 1 < s.cfg.memSize ∧ decode s.cfg (s.ramByte s.ca.toNat) (s.ramByte (s.ca.toNat + 1)) = .ok (.ldVxKk 0 7) := by decide

theorem witness_IllegalWordIsSkipped :
    let s := at_ 0xFFE 0x00 0x00
    s.ca.toNat + 1 < s.cfg.memSize ∧ decode s.cfg (s.ramByte s.ca.toNat) (s.ramByte (s.ca.toNat + 1)) = .error .illegalClass0 := by decide

theorem witness_IllegalAluSubOperations :
    let s := at_ 0xFFE 0x8F 0x1F
    (0xF : Nibble) ∈ [(0x8 : Nibble), 0x9, 0xA, 0xB, 0xC, 0xD, 0xF] ∧ s.ca.toNat + 1 < s.cfg.memSize ∧
    s.ramByte s.ca.toNat = 0x8#4 ++ regBits 15 ∧ s.ramByte (s.ca.toNat + 1) = regBits 1 ++ 0xF#4 := by decide

theorem witness_FetchOutOfRangeAdvances :
    (State.reset.setCa 0xFFF).cfg.memSize ≤ (State.reset.setCa 0xFFF).ca.toNat + 1 ∧
    (State.reset.setCa 0xFFFF).cfg.memSize ≤ (State.reset.setCa 0xFFFF).ca.toNat + 1 := by decide

/-- The self-call keeps `ca` and changes `sp` (J8): the second disjunct is needed. -/
theorem witness_EveryStepMakesProgress :
    nextSat (step (code 0x22 0x00)) (fun t => t.ca == 0x200 && t.sp == 1) = true := by decide

theorem witness_NonJumpsAdvanceByTwoOrFour :
    nextSat (exec .cls State.reset) (fun t => t.ca == State.reset.ca + 2) = true ∧
    nextSat (exec (.seVxKk 0 0) State.reset) (fun t => t.ca == State.reset.ca + 4) = true ∧
    nextSat (exec (.jp 0x204) State.reset) (fun t => t.ca == 0x204) = true := by decide

/-- A step with a record due for each of the eight kinds, and one with none. -/
theorem witness_RejectedStepHasNoOtherEffect :
    diagnosticDue (code 0x00 0x00) = some (rec2 .illegal 0x200 0x00 0x00) ∧
    diagnosticDue (code 0xD0 0x15) = some (rec2 .notImplemented 0x200 0xD0 0x15) ∧
    diagnosticDue ((code 0xBF 0xFF).setReg 0 1) = some (rec2 .jumpRange 0x200 0xBF 0xFF) ∧
    diagnosticDue (code 0x12 0x00) = some (rec2 .endlessLoop 0x200 0x12 0x00) ∧
    diagnosticDue { code 0x22 0x00 with sp := 16 } = some (rec2 .stackOverflow 0x200 0x22 0x00) ∧
    diagnosticDue (code 0x00 0xEE) = some (rec2 .stackUnderflow 0x200 0x00 0xEE) ∧
    diagnosticDue ((code 0xF1 0x55).setIdx 0xFFF) = some (rec2 .memRange 0x200 0xF1 0x55) ∧
    diagnosticDue (State.reset.setCa 0xFFF) = some ⟨.fetchRange, 0xFFF, none⟩ := by decide

theorem witness_StepAppendsExactlyTheDueDiagnostic :
    diagnosticDue ((code 0xF1 0x55).setIdx 0xFFE) = none ∧
    nextSat (step ((code 0xF1 0x55).setIdx 0xFFE)) (fun t => t.diag == []) = true := by decide

/-- Both sides of the equivalence occur: a step that is safe, and one that is not. -/
theorem witness_SafeRunMeansNoDiagnosticDue :
    diagnosticDue (code 0x60 0x07) = none ∧ diagnosticDue (code 0x00 0x00) ≠ none := by decide

theorem witness_OutputTracesOnlyGrow :
    Move.reset ∉ [Move.load (.image [0x00, 0xE0]), .tick, .step] ∧
    nextSat (runMoves [.load (.image [0x00, 0xE0]), .tick, .step] State.reset)
      (fun t => t.display == [.clear, .update [], .clear]) = true := by decide

/-- Clauses of RET: the empty stack, the lowest and the highest entry. -/
theorem witness_RetResumesAfterCallSite :
    State.reset.sp.val = 0 ∧ (State.reset.push 0 0x200).sp.val = (0 : Fin 16).val + 1 ∧
    (State.reset.push 15 0x200).sp.val = (15 : Fin 16).val + 1 := by decide

/-- Clauses of JP at the boundary of `MEM_SIZE`: at it, one below, and the jump's own address. -/
theorem witness_JpGuardsAndTarget :
    let s := { code 0x18 0x00 with cfg := sized 0x800 }
    s.cfg.memSize ≤ (0x800 : Imm12).toNat ∧
    ((0x200 : Imm12).toNat < s.cfg.memSize ∧ (0x200 : Imm12).toNat = s.ca.toNat) ∧
    ((0x7FF : Imm12).toNat < s.cfg.memSize ∧ (0x7FF : Imm12).toNat ≠ s.ca.toNat) := by decide

/-- Clauses of CALL: the full stack, the first and the last free entry. -/
theorem witness_CallPushesOwnAddress :
    (State.reset.push 15 0x200).sp.val = 16 ∧ State.reset.sp.val = (0 : Fin 16).val ∧
    (State.reset.push 14 0x200).sp.val = (15 : Fin 16).val := by decide

theorem witness_SeVxVySkipsWhenEqual :
    (1 : Nibble) ≠ 0 ∧ (with12 7 7 State.reset).reg 1 = (with12 7 7 State.reset).reg 2 ∧
    (with12 7 8 State.reset).reg 1 ≠ (with12 7 8 State.reset).reg 2 := by decide

theorem witness_SneVxVySkipsWhenDifferent :
    State.reset.cfg.class9ChecksN = false ∧ (State.create strict9).cfg.class9ChecksN = true ∧ (0xF : Nibble) ≠ 0 ∧
    (with12 7 8 State.reset).reg 1 ≠ (with12 7 8 State.reset).reg 2 ∧
    (with12 7 7 State.reset).reg 1 = (with12 7 7 State.reset).reg 2 := by decide

/-- Clauses of JP V0 at the boundary: the sum 0x1000, the sum 0xFFF, and the jump's own address. -/
theorem witness_JpV0GuardsAndTarget :
    let s := State.reset.setReg 0 1
    s.cfg.memSize ≤ (0xFFF : Imm12).toNat + (s.reg 0).toNat ∧
    ((0x1FF : Imm12).toNat + (s.reg 0).toNat < s.cfg.memSize ∧ (0x1FF : Imm12).toNat + (s.reg 0).toNat = s.ca.toNat) ∧
    ((0xFFE : Imm12).toNat + (s.reg 0).toNat < s.cfg.memSize ∧ (0xFFE : Imm12).toNat + (s.reg 0).toNat ≠ s.ca.toNat) := by decide

theorem witness_CallThenRetRestores :
    let s := (code 0x2F 0xFE).setRam [(0x200, 0x2F), (0x201, 0xFE), (0xFFF, 0xEE)]
    s.sp.val = (0 : Fin 16).val ∧ s.ca.toNat + 1 < s.cfg.memSize ∧
    s.ramByte s.ca.toNat = 0x2#4 ++ (0xFFE : Imm12).extractLsb' 8 4 ∧ s.ramByte (s.ca.toNat + 1) = (0xFFE : Imm12).extractLsb' 0 8 ∧
    (0xFFE : Imm12).toNat + 1 < s.cfg.memSize ∧ s.ramByte (0xFFE : Imm12).toNat = 0x00 ∧ s.ramByte ((0xFFE : Imm12).toNat + 1) = 0xEE := by
  decide

theorem witness_SeVxKkSkipsWhenEqual :
    State.reset.reg 0 = 0x00 ∧ State.reset.reg 0 ≠ 0xFF := by decide

theorem witness_SneVxKkSkipsWhenDifferent :
    State.reset.reg 15 ≠ 0x01 ∧ State.reset.reg 15 = 0x00 := by decide

/-- The clauses of the five flag-writing operations: a destination that is not `VF`; the operands on both sides of each condition. -/
theorem witness_flag_writing_clauses :
    (14 : Reg) ≠ 0xF ∧ ((with12 0xFF 0x01 State.reset).reg 1).toNat + ((with12 0xFF 0x01 State.reset).reg 2).toNat > 255 ∧
    ¬ ((with12 0xFF 0x00 State.reset).reg 1).toNat + ((with12 0xFF 0x00 State.reset).reg 2).toNat > 255 ∧
    ((with12 0x00 0x01 State.reset).reg 1).toNat < ((with12 0x00 0x01 State.reset).reg 2).toNat := by decide

/-- Clauses of ADD I, Vx: one above the ceiling, and the ceiling itself with the parameter true and false. -/
theorem witness_AddIVxSumAndCeilingFlag :
    let s := (with12 0 1 State.reset).setIdx 0xFFF
    let clearing := (State.create { fx1eClearsVF := true }).setIdx 0xFFF
    s.cfg.addrCeiling < s.idx.toNat + (s.reg 2).toNat ∧
    (clearing.idx.toNat + (clearing.reg 2).toNat ≤ clearing.cfg.addrCeiling ∧ clearing.cfg.fx1eClearsVF = true) ∧
    (s.idx.toNat + (s.reg 3).toNat ≤ s.cfg.addrCeiling ∧ s.cfg.fx1eClearsVF = false) := by decide

/-- `FX1E_CLEARS_VF`: the flag register is cleared at the ceiling (D3). -/
theorem test_addIVx_clears :
    nextSat (exec (.addIVx 2) (((State.create { fx1eClearsVF := true }).setIdx 0xFFF).setReg 15 7)) (fun t => t.reg 15 == 0) = true := by decide

/-- Clauses of the two block transfers: the last base that fits, and the first that does not. -/
theorem witness_LdMemIVxDumpsRegisters_and_LdVxMemILoadsRegisters :
    let fits := State.reset.setIdx 0xFF0
    let tooHigh := State.reset.setIdx 0xFF1
    fits.idx.toNat + (15 : Reg).val < fits.cfg.memSize ∧ tooHigh.cfg.memSize ≤ tooHigh.idx.toNat + (15 : Reg).val := by decide

theorem witness_StoreIsSeenByNextFetch :
    let s := (at_ 0xFFC 0xF1 0x55).setIdx 0xFFE
    s.ca.toNat + 3 < s.cfg.memSize ∧ s.cfg.memSize ≤ 0x1000 ∧ s.ramByte s.ca.toNat = 0xF#4 ++ regBits 1 ∧
    s.ramByte (s.ca.toNat + 1) = 0x55 ∧ s.idx = s.ca + 2 ∧ 1 ≤ (1 : Reg).val ∧ s.idx.toNat + (1 : Reg).val < s.cfg.memSize := by decide

theorem witness_PlaceholdersOnlyLogAndAdvance :
    ((0xE#4 ++ (regBits 15 ++ 0x9E#8) : Word), Instr.skpVx 15) ∈
      [((0xD#4 ++ (regBits 15 ++ (regBits 0 ++ 0x5#4)) : Word), Instr.drwVxVyN 15 0 5), (0xE#4 ++ (regBits 15 ++ 0x9E#8), Instr.skpVx 15)] := by
  decide

/-- Each of the writers does change what it may change. -/
theorem witness_SpecialStateHasOnlyItsWriters :
    nextSat (exec (.ldINnn 1) State.reset) (fun t => t.idx != State.reset.idx) = true ∧
    nextSat (exec (.call 1) State.reset) (fun t => t.sp != State.reset.sp && t.stack[0] != State.reset.stack[0]) = true ∧
    nextSat (exec (.ldDtVx 1) (with12 7 8 State.reset)) (fun t => t.dt != State.reset.dt) = true ∧
    nextSat (exec (.ldStVx 1) (with12 7 8 State.reset)) (fun t => t.st != State.reset.st) = true ∧
    nextSat (exec (.ldMemIVx 1) (with12 7 8 State.reset)) (fun t => t.ramByte 1 != State.reset.ramByte 1) = true ∧
    nextSat (exec .cls { State.reset with fb := [(5, 1)] }) (fun t => t.pixel 5 == 0) = true := by decide

theorem witness_FlagRegisterHasOnlyItsWriters :
    nextSat (exec (.addVxVy 1 2) (with12 0xFF 1 State.reset)) (fun t => t.reg 15 != State.reset.reg 15) = true ∧
    nextSat (exec (.ldVxKk 15 9) State.reset) (fun t => t.reg 15 != State.reset.reg 15) = true := by decide

/-- Clauses of the random-source port: an RND at `ca`, and something else. -/
theorem witness_RandomPortCalledOnlyByRnd :
    let s := code 0xC3 0x0F
    (s.ca.toNat + 1 < s.cfg.memSize ∧ decode s.cfg (s.ramByte s.ca.toNat) (s.ramByte (s.ca.toNat + 1)) = .ok (.rndVxKk 3 0x0F)) ∧
    nextSat (step State.reset) (fun t => t.draws == 0) = true := by decide

/-- Clauses of the display port: a CLS at `ca`, a step without one, an accepted load and a failed one. -/
theorem witness_DisplayPortEvents :
    let s := code 0x00 0xE0
    (s.ca.toNat + 1 < s.cfg.memSize ∧ decode s.cfg (s.ramByte s.ca.toNat) (s.ramByte (s.ca.toNat + 1)) = .ok .cls) ∧
    decode s.cfg (State.reset.ramByte 0x200) (State.reset.ramByte 0x201) ≠ .ok .cls ∧
    (load (.image [0x00, 0xE0]) (State.create (sized 0x202))).isOk = true ∧
    (load (.image [0x00, 0xE0, 0x00]) (State.create (sized 0x202))).isOk = false ∧
    nextSat (applyMove (.load (.image [0x00, 0xE0, 0x00])) (State.create (sized 0x202))) (fun t => t.display == []) = true := by decide

/-- Two states that agree for programs and are not equal. -/
theorem witness_OutputsNeverInfluenceExecution :
    AgreeForPrograms State.reset (State.reset.emitDiag ⟨.fetchRange, 0, none⟩) ∧
    State.reset.emitDiag ⟨.fetchRange, 0, none⟩ ≠ State.reset :=
  ⟨⟨rfl, frame_emitDiag State.reset _ trivial⟩, by decide⟩

/-- Clauses of the load: an image of exactly the largest length, one byte more, and an unreadable source. -/
theorem witness_LoadCopiesImageOrFails :
    let s := State.create (sized 0x202)
    [(0x12 : Byte), 0x04].length ≤ s.cfg.memSize - 0x200 ∧ s.cfg.memSize - 0x200 < [(0x12 : Byte), 0x04, 0xCC].length ∧
    nextSat (applyMove (.load .unreadable) s) (fun t => t == s) = true := by decide

/-- The parameter range of D1 at both ends. -/
theorem witness_CreatedMachineMeetsInvariant :
    (sized 0x202).wf = true ∧ (sized 0x1000).wf = true ∧ (sized 0x201).wf = false ∧ (sized 0x1001).wf = false := by decide

/-- A state of the invariant with a call pending, and its step. -/
theorem witness_EveryStepKeepsInvariant :
    Inv ((code 0x22 0x06).push 0 0x200) ∧ nextSat (step ((code 0x22 0x06).push 0 0x200)) (fun t => t.sp == 2) = true :=
  ⟨⟨by decide, by decide, by decide, by decide, by decide⟩, by decide⟩

theorem witness_EveryRunKeepsInvariant :
    Inv State.reset ∧ nextSat (runMoves [.step, .tick, .load .unreadable] State.reset) (fun t => t.ca == 0x202) = true :=
  ⟨⟨by decide, by decide, by decide, by decide, by decide⟩, by decide⟩

end Sys2Proof.Tests
end

section
/-! SUPPORT. The value of a word and of each of its fields as a number: what the slices of R82's table mean in arithmetic. -/

namespace Sys2Proof

/-- `opcode = byte0 * 256 + byte1` (R81): the concatenation is a sum, as `byte1` fits below bit 8. -/
@[simp] theorem wordOf_toNat (byte0 byte1 : Byte) : (wordOf byte0 byte1).toNat = byte0.toNat * 256 + byte1.toNat := by
  calc (wordOf byte0 byte1).toNat
      = byte0.toNat <<< 8 ||| byte1.toNat := BitVec.toNat_append byte0 byte1
    _ = byte0.toNat <<< 8 + byte1.toNat := (Nat.shiftLeft_add_eq_or_of_lt byte1.isLt _).symm
    _ = byte0.toNat * 256 + byte1.toNat := by rw [Nat.shiftLeft_eq]

/-- A slice as a number: divide away the bits below it, reduce away the bits above it. -/
theorem extractLsb'_toNat_eq_div_mod {k : Nat} (w : BitVec k) (start len : Nat) :
    (w.extractLsb' start len).toNat = w.toNat / 2 ^ start % 2 ^ len := by
  rw [BitVec.extractLsb'_toNat, Nat.shiftRight_eq_div_pow]

/-- A slice from bit 0 as a number: nothing lies below it. -/
theorem extractLsb'_zero_toNat_eq_mod {k : Nat} (w : BitVec k) (len : Nat) : (w.extractLsb' 0 len).toNat = w.toNat % 2 ^ len := by
  rw [extractLsb'_toNat_eq_div_mod, Nat.pow_zero, Nat.div_one]

/-! ### The fields of any word -/

@[simp] theorem fieldClass_toNat (w : Word) : (fieldClass w).toNat = w.toNat / 4096 := by
  have : w.toNat < 65536 := w.isLt
  have : (fieldClass w).toNat = w.toNat / 4096 % 16 := extractLsb'_toNat_eq_div_mod w 12 4
  omega

@[simp] theorem fieldX_val (w : Word) : (fieldX w).val = w.toNat / 256 % 16 := extractLsb'_toNat_eq_div_mod w 8 4

@[simp] theorem fieldY_val (w : Word) : (fieldY w).val = w.toNat / 16 % 16 := extractLsb'_toNat_eq_div_mod w 4 4

@[simp] theorem fieldN_toNat (w : Word) : (fieldN w).toNat = w.toNat % 16 := extractLsb'_zero_toNat_eq_mod w 4

@[simp] theorem fieldKk_toNat (w : Word) : (fieldKk w).toNat = w.toNat % 256 := extractLsb'_zero_toNat_eq_mod w 8

@[simp] theorem fieldNnn_toNat (w : Word) : (fieldNnn w).toNat = w.toNat % 4096 := extractLsb'_zero_toNat_eq_mod w 12

/-- `nnn = x ## kk` (R82). -/
theorem fieldNnn_toNat_eq_fieldX_fieldKk (w : Word) : (fieldNnn w).toNat = (fieldX w).val * 256 + (fieldKk w).toNat := by
  simp only [fieldNnn_toNat, fieldX_val, fieldKk_toNat]; omega

/-- `kk = y ## n` (R82). -/
theorem fieldKk_toNat_eq_fieldY_fieldN (w : Word) : (fieldKk w).toNat = (fieldY w).val * 16 + (fieldN w).toNat := by
  simp only [fieldKk_toNat, fieldY_val, fieldN_toNat]; omega

/-! ### The fields of two fetched bytes -/

section FetchedBytes

variable (byte0 byte1 : Byte)

theorem fieldClass_wordOf_toNat : (fieldClass (wordOf byte0 byte1)).toNat = byte0.toNat / 16 := by
  have := byte1.isLt
  rw [fieldClass_toNat, wordOf_toNat]; omega

theorem fieldX_wordOf_val : (fieldX (wordOf byte0 byte1)).val = byte0.toNat % 16 := by
  have := byte1.isLt
  rw [fieldX_val, wordOf_toNat]; omega

theorem fieldY_wordOf_val : (fieldY (wordOf byte0 byte1)).val = byte1.toNat / 16 := by
  have := byte1.isLt
  rw [fieldY_val, wordOf_toNat]; omega

theorem fieldN_wordOf_toNat : (fieldN (wordOf byte0 byte1)).toNat = byte1.toNat % 16 := by
  rw [fieldN_toNat, wordOf_toNat]; omega

/-- `kk` is the low byte of the word, whole. -/
theorem fieldKk_wordOf_toNat : (fieldKk (wordOf byte0 byte1)).toNat = byte1.toNat :=
  congrArg BitVec.toNat (byteLo_wordOf byte0 byte1)

theorem fieldNnn_wordOf_toNat :
    (fieldNnn (wordOf byte0 byte1)).toNat = byte0.toNat % 16 * 256 + byte1.toNat := by
  rw [fieldNnn_toNat_eq_fieldX_fieldKk, fieldX_wordOf_val, fieldKk_wordOf_toNat]

end FetchedBytes

/-- Settles O1: each field of the word is a slice whose value is a quotient or remainder of the word's (R82), and the word's is the sum of R81. -/
theorem fetchedBytesFormWordAndFields : Obligations.FetchedBytesFormWordAndFields := fun byte0 byte1 =>
  ⟨wordOf_toNat byte0 byte1, fieldClass_wordOf_toNat byte0 byte1, fieldX_wordOf_val byte0 byte1, fieldY_wordOf_val byte0 byte1,
    fieldN_wordOf_toNat byte0 byte1, fieldKk_wordOf_toNat byte0 byte1, fieldNnn_wordOf_toNat byte0 byte1,
    fieldNnn_toNat_eq_fieldX_fieldKk _, fieldKk_toNat_eq_fieldY_fieldN _⟩

end Sys2Proof
end

section
/-! SUPPORT. Decoding an instruction's own word, and the handlers of 40_dispatch.md: what the reject path leaves, which steps take the ILLEGAL handler, and which instructions are
the NOT_IMPLEMENTED one. -/

namespace Sys2Proof

/-! ### Decoding an instruction's own word -/

/-- The decode tree of R85 finds a well-formed instruction again from its word: the class is read first, then what its class selects by. -/
theorem decodeWord_encodeWord {c : Config} {i : Instr} (h : i.wellFormed c = true) : decodeWord c (encodeWord i) = .ok i := by
  cases i with
  | cls | ret => rfl
  | sneVxVy x y n =>
    have hn : c.class9ChecksN = true → n = 0 := fun hc => by simpa [Instr.wellFormed, hc] using h
    simpa [encodeWord, decodeWord] using hn
  | ldVxVy | orVxVy | andVxVy | xorVxVy | addVxVy | subVxVy | shrVx | subnVxVy | shlVx =>
    simp [encodeWord, decodeWord, decodeClass8]
  | skpVx | sknpVx => simp [encodeWord, decodeWord, decodeClassE]
  | ldVxDt | ldVxK | ldDtVx | ldStVx | addIVx | ldFVx | ldBVx | ldMemIVx | ldVxMemI =>
    simp [encodeWord, decodeWord, decodeClassF]
  | _ => simp [encodeWord, decodeWord]

/-- The placeholders carry no operand a parameter restricts. -/
theorem wellFormed_of_isStub {c : Config} {i : Instr} (h : i.isStub = true) : i.wellFormed c = true := by
  cases i with
  | sneVxVy => exact nomatch h
  | _ => rfl

namespace Machine

/-! ### The reject path -/

/-- The reject path advances by 2 and appends its record; the frame of its two updates leaves all else. -/
theorem rejected_rejectWith (s : State) (k : DiagKind) (bytes : Option (Byte × Byte)) :
    Rejected k bytes s (rejectWith k bytes s) :=
  ⟨rejectWith_ca s k bytes, rejectWith_diag s k bytes, frame_rejectWith s k bytes rfl⟩

/-! ### The two handlers -/

/-- A fetched word that decodes to nothing goes to the ILLEGAL handler (R110). -/
theorem step_eq_illegalWord {s : State} {e : DecodeReject} (hf : s.ca.toNat + 1 < s.cfg.memSize)
    (hd : decode s.cfg (s.ramByte s.ca.toNat) (s.ramByte (s.ca.toNat + 1)) = .error e) :
    step s = .next (illegalWord (s.ramByte s.ca.toNat) (s.ramByte (s.ca.toNat + 1)) s) := by
  have hfetch : s.fetch = some (s.ramByte s.ca.toNat, s.ramByte (s.ca.toNat + 1)) := (fetch_some_iff s _).2 ⟨hf, rfl⟩
  simp only [step, hfetch, hd]

/-- The six placeholders execute as the NOT_IMPLEMENTED handler (R116, R190); no other row is a stub. -/
theorem exec_eq_notImplemented (s : State) {i : Instr} (h : i.isStub = true) : exec i s = .next (notImplemented i s) := by
  cases i with
  | drwVxVyN | skpVx | sknpVx | ldVxK | ldFVx | ldBVx => rfl
  | _ => exact nomatch h

/-- What R116 says of a placeholder, whichever it is: its word decodes to it, and executing it is rejected with the word's bytes. -/
theorem decode_and_reject_of_isStub (s : State) {i : Instr} (h : i.isStub = true) :
    decodeWord s.cfg (encodeWord i) = .ok i ∧ ∃ t, exec i s = .next t ∧ Rejected .notImplemented (some (encode i)) s t :=
  ⟨decodeWord_encodeWord (wellFormed_of_isStub h), _, exec_eq_notImplemented s h, rejected_rejectWith s _ _⟩

end Machine

open Machine

/-- Settles O9: the step is the ILLEGAL handler, which is the reject path with the fetched bytes. -/
theorem illegalWordIsSkipped : Obligations.IllegalWordIsSkipped := fun s _ hf hd =>
  ⟨_, step_eq_illegalWord hf hd, rejected_rejectWith s _ _⟩

/-- Settles O42: each listed word is the encoding of the instruction beside it, and that instruction is a placeholder. -/
theorem placeholdersOnlyLogAndAdvance : Obligations.PlaceholdersOnlyLogAndAdvance := by
  intro x y n s w i hmem
  have hstub : w = encodeWord i ∧ i.isStub = true := by
    simp only [List.mem_cons, Prod.mk.injEq, List.not_mem_nil, or_false] at hmem
    rcases hmem with ⟨rfl, rfl⟩ | ⟨rfl, rfl⟩ | ⟨rfl, rfl⟩ | ⟨rfl, rfl⟩ | ⟨rfl, rfl⟩ | ⟨rfl, rfl⟩ <;> exact ⟨rfl, rfl⟩
  obtain ⟨rfl, hi⟩ := hstub
  exact decode_and_reject_of_isStub s hi

end Sys2Proof
end

section
/-! SUPPORT. Control flow: where a guarded jump goes, where a skip instruction goes, and the words of class 5. -/

namespace Sys2Proof

/-- Class 5 checks the trailing nibble: only 0 selects an instruction (R85, R87). -/
theorem decodeWord_class5_of_ne_zero (c : Config) (x y : Reg) {n : Nibble} (hn : n ≠ 0) :
    decodeWord c (wordXYN 0x5 x y n) = .error .illegalClass5 := by
  simpa [decodeWord] using hn

/-- The two bytes of an instruction of format `NNN` split `nnn` after its top nibble (R81, R83). -/
theorem encode_of_wordNNN {i : Instr} {c : Nibble} {nnn : Imm12} (h : encodeWord i = wordNNN c nnn) :
    encode i = (c ++ nnn.extractLsb' 8 4, nnn.extractLsb' 0 8) := by
  rw [encode, h, byteHi_wordNNN, byteLo_wordNNN]

namespace Machine

/-! ### Guarded jumps -/

section Jumps

variable (s : State) (i : Instr) {target : Nat}

/-- Guard (a): the target is outside memory. -/
theorem jumpTo_of_memSize_le (h : s.cfg.memSize ≤ target) : jumpTo i target s = reject .jumpRange i s := if_pos h

/-- Guard (b), which comes second: the target is the jump's own address. -/
theorem jumpTo_of_eq_ca (hlt : target < s.cfg.memSize) (h : target = s.ca.toNat) :
    jumpTo i target s = reject .endlessLoop i s :=
  (if_neg (Nat.not_le.2 hlt)).trans (if_pos h)

theorem jumpTo_of_ne_ca (hlt : target < s.cfg.memSize) (h : target ≠ s.ca.toNat) :
    jumpTo i target s = s.setCa (BitVec.ofNat 16 target) :=
  (if_neg (Nat.not_le.2 hlt)).trans (if_neg h)

/-- Both guards and the jump, for any target that fits in `ca`; a rejected jump is recorded with its own two bytes. -/
theorem jumpTo_guards_and_target (ht : target < 2 ^ 16) :
    (s.cfg.memSize ≤ target → Rejected .jumpRange (some (encode i)) s (jumpTo i target s)) ∧
    (target < s.cfg.memSize → target = s.ca.toNat → Rejected .endlessLoop (some (encode i)) s (jumpTo i target s)) ∧
    (target < s.cfg.memSize → target ≠ s.ca.toNat →
      (jumpTo i target s).ca.toNat = target ∧ Frame noPart s (jumpTo i target s)) := by
  refine ⟨fun hle => ?range, fun hlt heq => ?self, fun hlt hne => ?jump⟩
  case range =>
    rw [jumpTo_of_memSize_le s i hle]
    exact rejected_rejectWith s _ _
  case self =>
    rw [jumpTo_of_eq_ca s i hlt heq]
    exact rejected_rejectWith s _ _
  case jump =>
    rw [jumpTo_of_ne_ca s i hlt hne]
    exact ⟨Nat.mod_eq_of_lt ht, frame_setCa s _⟩

end Jumps

/-! ### Skips -/

/-- A skip instruction whose condition is `p` goes 4 further where `p` holds and 2 where it does not, and changes nothing else. -/
theorem advanceSkipIf_skips (s : State) {taken : Bool} {p : Prop} (h : taken = true ↔ p) :
    (p → (advanceSkipIf taken s).ca = s.ca + 4) ∧ (¬ p → (advanceSkipIf taken s).ca = s.ca + 2) ∧
      Frame noPart s (advanceSkipIf taken s) := by
  rw [advanceSkipIf_ca]
  exact ⟨fun hp => if_pos (h.2 hp), fun hp => if_neg fun ht => hp (h.1 ht), frame_advanceSkipIf s taken⟩

end Machine

open Machine

/-- Settles O21: executing JP is the guarded jump to `nnn`, a 12-bit and so in-range value of `ca`, and the record's bytes are JP's encoding. -/
theorem jpGuardsAndTarget : Obligations.JpGuardsAndTarget := by
  intro nnn s
  have hbytes : encode (.jp nnn) = (0x1#4 ++ nnn.extractLsb' 8 4, nnn.extractLsb' 0 8) := encode_of_wordNNN rfl
  have htarget : nnn.toNat < 2 ^ 16 := by omega
  rw [← hbytes]
  exact ⟨decodeWord_encodeWord (i := .jp nnn) rfl, _, rfl, jumpTo_guards_and_target s (.jp nnn) htarget⟩

/-- Settles O23: the trailing nibble selects between SE and ILLEGAL, and SE is the skip on the equality of its two registers. -/
theorem seVxVySkipsWhenEqual : Obligations.SeVxVySkipsWhenEqual := fun x y s =>
  ⟨decodeWord_encodeWord (i := .seVxVy x y) rfl, fun _ hn => decodeWord_class5_of_ne_zero s.cfg x y hn,
    _, rfl, advanceSkipIf_skips s beq_iff_eq⟩

end Sys2Proof
end

section
/-! SUPPORT. Immediate and compare: a skip on a difference, and an instruction whose only effect is one register's new value. -/

namespace Sys2Proof

namespace Machine

/-- A skip on a difference: the same skip as `advanceSkipIf_skips`, with its other condition stated as the equality. -/
theorem advanceSkipIf_bne_skips (s : State) (a b : Byte) :
    (a ≠ b → (advanceSkipIf (a != b) s).ca = s.ca + 4) ∧ (a = b → (advanceSkipIf (a != b) s).ca = s.ca + 2) ∧
      Frame noPart s (advanceSkipIf (a != b) s) := by
  obtain ⟨hne, heq, hframe⟩ := advanceSkipIf_skips s (bne_iff_ne (a := a) (b := b))
  exact ⟨hne, fun h => heq (not_not_intro h), hframe⟩

@[simp] theorem advance_reg (s : State) (r : Reg) : (advance s).reg r = s.reg r := rfl

/-- A register write and the default advance change that register, `VF` too where it is the one, and no other part. -/
theorem frame_advance_setReg {c : Part → Prop} (s : State) {x : Reg} (b : Byte) (h : c (.reg x)) :
    Frame c s (advance (s.setReg x b)) :=
  (frame_setReg s b h).trans (frame_advance _)

end Machine

open Machine

/-- Settles O27: SE is the skip on the equality of its register and its immediate. -/
theorem seVxKkSkipsWhenEqual : Obligations.SeVxKkSkipsWhenEqual := fun x kk s =>
  ⟨decodeWord_encodeWord (i := .seVxKk x kk) rfl, _, rfl, advanceSkipIf_skips s beq_iff_eq⟩

/-- Settles O28: SNE is the skip on the difference of its register and its immediate. -/
theorem sneVxKkSkipsWhenDifferent : Obligations.SneVxKkSkipsWhenDifferent := fun x kk s =>
  ⟨decodeWord_encodeWord (i := .sneVxKk x kk) rfl, _, rfl, advanceSkipIf_bne_skips s (s.reg x) kk⟩

/-- Settles O29: LD writes its immediate to its register, which the advance keeps. -/
theorem ldVxKkLoadsImmediate : Obligations.LdVxKkLoadsImmediate := fun x kk s =>
  ⟨decodeWord_encodeWord (i := .ldVxKk x kk) rfl, _, rfl, rfl, setReg_reg_same s x kk, frame_advance_setReg s kk rfl⟩

/-- Settles O30: ADD writes one register, and the byte it writes there is the exact sum reduced modulo 256. -/
theorem addVxKkWrapsWithoutFlag : Obligations.AddVxKkWrapsWithoutFlag := by
  intro x kk s
  refine ⟨decodeWord_encodeWord (i := .addVxKk x kk) rfl, _, rfl, rfl, ?sum, frame_advance_setReg s _ rfl⟩
  case sum => rw [advance_reg, setReg_reg_same, BitVec.toNat_ofNat]

end Sys2Proof
end

section
/-! SUPPORT. The arithmetic/logic group: the words of class 8 that select no operation, the exact values of results and flags, and what the
group's two ways of writing a result leave. -/

namespace Sys2Proof

/-! ### The words of class 8 -/

/-- Two bytes cut as format `XYN` cuts them make that format's word (R81, R83). -/
theorem wordOf_bytes_wordXYN (c : Nibble) (x y : Reg) (n : Nibble) :
    wordOf (c ++ regBits x) (regBits y ++ n) = wordXYN c x y n := by
  have h := wordOf_bytes (wordXYN c x y n)
  rwa [byteHi_wordXYN, byteLo_wordXYN] at h

/-- The trailing nibbles of class 8 that select none of its nine operations (R85, R170). -/
theorem decodeClass8_of_illegal (x y : Reg) {n : Nibble} (hn : n ∈ [0x8#4, 0x9#4, 0xA#4, 0xB#4, 0xC#4, 0xD#4, 0xF#4]) :
    decodeClass8 x y n = .error .illegalClass8 := by
  simp only [List.mem_cons, List.not_mem_nil, or_false] at hn
  rcases hn with rfl | rfl | rfl | rfl | rfl | rfl | rfl <;> rfl

/-- Class 8 is decoded by its trailing nibble alone. -/
theorem decode_class8 (c : Config) (x y : Reg) (n : Nibble) :
    decode c (0x8#4 ++ regBits x) (regBits y ++ n) = decodeClass8 x y n := by
  rw [decode, wordOf_bytes_wordXYN]
  simp [decodeWord]

namespace Machine

/-! ### Flags as numbers -/

theorem flagByte_toNat (b : Bool) : (flagByte b).toNat = if b = true then 1 else 0 := by
  cases b <;> rfl

theorem carryOut_toNat (a b : Byte) : (carryOut a b).toNat = if a.toNat + b.toNat > 255 then 1 else 0 := by
  simp only [carryOut, flagByte_toNat, decide_eq_true_eq]

theorem notBorrow_toNat (a b : Byte) : (notBorrow a b).toNat = if a.toNat < b.toNat then 0 else 1 := by
  simp only [notBorrow, flagByte_toNat, Bool.not_eq_true', decide_eq_false_iff_not, ite_not]

/-- A bit made a flag is that bit as a number: 0 or 1. -/
theorem flagByte_getLsbD_toNat (a : Byte) (i : Nat) : (flagByte (a.getLsbD i)).toNat = a.toNat / 2 ^ i % 2 := by
  calc (flagByte (a.getLsbD i)).toNat
      = (a.toNat.testBit i).toNat := by rw [flagByte_toNat, BitVec.getLsbD, Bool.toNat, Bool.cond_eq_ite]
    _ = a.toNat / 2 ^ i % 2 := Nat.toNat_testBit a.toNat i

theorem lowBitOut_toNat (a : Byte) : (lowBitOut a).toNat = a.toNat % 2 := by
  rw [lowBitOut, flagByte_getLsbD_toNat, Nat.pow_zero, Nat.div_one]

/-- Above bit 7 a byte has no bit, so the quotient is the bit itself. -/
theorem highBitOut_toNat (a : Byte) : (highBitOut a).toNat = a.toNat / 128 := by
  have := a.isLt
  rw [highBitOut, flagByte_getLsbD_toNat]
  omega

/-! ### Results as numbers -/

/-- The exact difference reduced modulo 256: 256 is added back exactly where it borrows (R8, R166). -/
theorem ofInt_sub_toNat (a b : Byte) :
    (BitVec.ofInt 8 ((a.toNat : Int) - (b.toNat : Int))).toNat =
      if a.toNat < b.toNat then a.toNat + 256 - b.toNat else a.toNat - b.toNat := by
  have := a.isLt
  have := b.isLt
  rw [BitVec.toNat_ofInt]
  split <;> omega

theorem ushiftRight_one_toNat (a : Byte) : (a >>> 1).toNat = a.toNat / 2 := by
  rw [BitVec.toNat_ushiftRight, Nat.shiftRight_eq_div_pow, Nat.pow_one]

theorem shiftLeft_one_toNat (a : Byte) : (a <<< 1).toNat = a.toNat * 2 % 256 := by
  rw [BitVec.toNat_shiftLeft, Nat.shiftLeft_eq, Nat.pow_one]

/-! ### The two ways the group writes -/

/-- A copy or a logic operation: one register gets the value, `ca` advances by 2, and no flag is written (R160). -/
theorem advance_setReg_writes (s : State) (x : Reg) (b : Byte) :
    (advance (s.setReg x b)).ca = s.ca + 2 ∧ (advance (s.setReg x b)).reg x = b ∧
      Frame (fun p => p = .reg x) s (advance (s.setReg x b)) :=
  ⟨rfl, setReg_reg_same s x b, frame_advance_setReg s b rfl⟩

/-- A flag-writing operation whose result and flag have the values `m` and `k`: the flag stands last, so for `x = 0xF` only it holds (R160). -/
theorem writeResultThenFlag_writes (s : State) (x : Reg) {r f : Byte} {m k : Nat} (hr : r.toNat = m) (hf : f.toNat = k) :
    (writeResultThenFlag x r f s).ca = s.ca + 2 ∧
    (x ≠ 0xF → ((writeResultThenFlag x r f s).reg x).toNat = m) ∧
    ((writeResultThenFlag x r f s).reg 0xF).toNat = k ∧
    Frame (fun p => p = .reg x ∨ p = .reg 0xF) s (writeResultThenFlag x r f s) := by
  refine ⟨writeResultThenFlag_ca s x r f, fun hx => ?result, ?flag, frame_writeResultThenFlag s r f (.inl rfl) (.inr rfl)⟩
  case result => rw [writeResultThenFlag_reg, if_neg hx, if_pos rfl, hr]
  case flag => rw [writeResultThenFlag_reg, if_pos rfl, hf]

end Machine

open Machine

/-- Settles O10: none of the seven nibbles selects an operation, so the step is the ILLEGAL handler with the two fetched bytes. -/
theorem illegalAluSubOperations : Obligations.IllegalAluSubOperations := by
  intro s x y n hn hf h0 h1
  have hd : decode s.cfg (s.ramByte s.ca.toNat) (s.ramByte (s.ca.toNat + 1)) = .error .illegalClass8 := by
    rw [h0, h1, decode_class8, decodeClass8_of_illegal x y hn]
  rw [← h0, ← h1]
  exact illegalWordIsSkipped s _ hf hd

/-- Settles O31: each of the four writes its value to `V[x]` and advances, and writes no flag. -/
theorem copyAndLogicLeaveFlag : Obligations.CopyAndLogicLeaveFlag := fun x y s =>
  ⟨⟨decodeWord_encodeWord (i := .ldVxVy x y) rfl, _, rfl, advance_setReg_writes s x _⟩,
    ⟨decodeWord_encodeWord (i := .orVxVy x y) rfl, _, rfl, advance_setReg_writes s x _⟩,
    ⟨decodeWord_encodeWord (i := .andVxVy x y) rfl, _, rfl, advance_setReg_writes s x _⟩,
    ⟨decodeWord_encodeWord (i := .xorVxVy x y) rfl, _, rfl, advance_setReg_writes s x _⟩⟩

/-- Settles O32: the result is the exact sum reduced modulo 256, the flag its carry. -/
theorem addVxVySumAndCarry : Obligations.AddVxVySumAndCarry := fun x y s =>
  ⟨decodeWord_encodeWord (i := .addVxVy x y) rfl, _, rfl,
    writeResultThenFlag_writes s x (BitVec.toNat_ofNat _ 8) (carryOut_toNat (s.reg x) (s.reg y))⟩

/-- Settles O33: the result is the exact difference reduced modulo 256, the flag its not-borrow. -/
theorem subVxVyDifferenceAndNotBorrow : Obligations.SubVxVyDifferenceAndNotBorrow := fun x y s =>
  ⟨decodeWord_encodeWord (i := .subVxVy x y) rfl, _, rfl,
    writeResultThenFlag_writes s x (ofInt_sub_toNat (s.reg x) (s.reg y)) (notBorrow_toNat (s.reg x) (s.reg y))⟩

/-- Settles O34: the result is half of `V[x]` alone, the flag the bit shifted out. -/
theorem shrVxHalvesAndLowBit : Obligations.ShrVxHalvesAndLowBit := fun x y s =>
  ⟨decodeWord_encodeWord (i := .shrVx x y) rfl, _, rfl,
    writeResultThenFlag_writes s x (ushiftRight_one_toNat (s.reg x)) (lowBitOut_toNat (s.reg x))⟩

/-- Settles O35: SUB's result and flag with the operands exchanged. -/
theorem subnVxVyDifferenceAndNotBorrow : Obligations.SubnVxVyDifferenceAndNotBorrow := fun x y s =>
  ⟨decodeWord_encodeWord (i := .subnVxVy x y) rfl, _, rfl,
    writeResultThenFlag_writes s x (ofInt_sub_toNat (s.reg y) (s.reg x)) (notBorrow_toNat (s.reg y) (s.reg x))⟩

/-- Settles O36: the result is twice `V[x]` alone modulo 256, the flag the bit shifted out. -/
theorem shlVxDoublesAndHighBit : Obligations.ShlVxDoublesAndHighBit := fun x y s =>
  ⟨decodeWord_encodeWord (i := .shlVx x y) rfl, _, rfl,
    writeResultThenFlag_writes s x (shiftLeft_one_toNat (s.reg x)) (highBitOut_toNat (s.reg x))⟩

end Sys2Proof
end

section
/-! SUPPORT. Memory indirection: the value an address immediate has as a word. -/

namespace Sys2Proof

namespace Machine

/-- Zero extension keeps the value of `nnn`: 12 bits fit in 16 (R180). -/
@[simp] theorem zext16_toNat (nnn : Imm12) : (zext16 nnn).toNat = nnn.toNat :=
  BitVec.toNat_setWidth_of_le (by decide)

/-- An index write and the default advance change `I` and no other part. -/
theorem frame_advance_setIdx {c : Part → Prop} (s : State) (w : Word) (h : c .idx) : Frame c s (advance (s.setIdx w)) :=
  (frame_setIdx s w h).trans (frame_advance _)

end Machine

open Machine

/-- Settles O37: LD I writes the zero-extended `nnn` to `I`, which the advance keeps. -/
theorem ldINnnSetsIndex : Obligations.LdINnnSetsIndex := fun nnn s =>
  ⟨decodeWord_encodeWord (i := .ldINnn nnn) rfl, _, rfl, rfl, zext16_toNat nnn, frame_advance_setIdx s _ rfl⟩

end Sys2Proof
end

section
/-! SUPPORT. What each instruction can change, said once for all of them, and what follows for a whole step; the host's load as a move. -/

namespace Sys2Proof

namespace Machine

/-! ### The parts an instruction can change -/

/-- The parts of the state that executing `i` can change, its rejection included: the "written by" columns of 10_state.md read by rows. -/
def mayChange (i : Instr) (p : Part) : Prop :=
  match i with
  | .cls => p = .display ∨ ∃ q, p = .pixel q
  | .ret => p = .sp ∨ p = .diag
  | .call _ => p = .sp ∨ (∃ k, p = .entry k) ∨ p = .diag
  | .jp _ | .jpV0Nnn _ => p = .diag
  | .seVxKk _ _ | .sneVxKk _ _ | .seVxVy _ _ | .sneVxVy _ _ _ => False
  | .ldVxKk x _ | .addVxKk x _ | .ldVxVy x _ | .orVxVy x _ | .andVxVy x _ | .xorVxVy x _ | .ldVxDt x => p = .reg x
  | .addVxVy x _ | .subVxVy x _ | .shrVx x _ | .subnVxVy x _ | .shlVx x _ => p = .reg x ∨ p = .reg regVF
  | .rndVxKk x _ => p = .reg x ∨ p = .draws
  | .drwVxVyN _ _ _ | .skpVx _ | .sknpVx _ | .ldVxK _ | .ldFVx _ | .ldBVx _ => p = .diag
  | .ldDtVx _ => p = .dt
  | .ldStVx _ => p = .st
  | .ldINnn _ => p = .idx
  | .addIVx _ => p = .idx ∨ p = .reg regVF
  | .ldMemIVx _ => (∃ a, p = .byte a) ∨ p = .diag
  | .ldVxMemI x => (∃ r : Reg, r ≤ x ∧ p = .reg r) ∨ p = .diag

/-- Only RND takes a byte from the random-source port. -/
theorem mayChange_draws_iff (i : Instr) : mayChange i .draws ↔ ∃ x kk, i = .rndVxKk x kk := by
  cases i <;> simp [mayChange]

/-- Only CLS sends an event on the display port. -/
theorem mayChange_display_iff (i : Instr) : mayChange i .display ↔ i = .cls := by
  cases i <;> simp [mayChange]

section ExecFrame

variable {c : Part → Prop} {s t : State}

/-- RET pops or is rejected. -/
theorem frame_execRet (hsp : c .sp) (hdiag : c .diag) (h : execRet s = .next t) : Frame c s t := by
  unfold execRet at h
  split at h <;> cases h
  · exact frame_reject s _ _ hdiag
  · exact (frame_pop s _ hsp).trans (frame_setCa _ _)

/-- CALL pushes or is rejected. -/
theorem frame_execCall {nnn : Imm12} (hsp : c .sp) (hentry : ∀ k, c (.entry k)) (hdiag : c .diag)
    (h : execCall nnn s = .next t) : Frame c s t := by
  unfold execCall at h
  split at h <;> cases h
  · exact frame_reject s _ _ hdiag
  · exact (frame_push s _ (hentry _) hsp).trans (frame_setCa _ _)

/-- The register dump stores its block or is rejected. -/
theorem frame_execLdMemIVx {x : Reg} (hbyte : ∀ a, c (.byte a)) (hdiag : c .diag) (h : execLdMemIVx x s = .next t) :
    Frame c s t := by
  unfold execLdMemIVx at h
  split at h <;> cases h
  · exact (frame_storeBytes s _ _ fun _ _ => hbyte _).trans (frame_advance _)
  · exact frame_reject s _ _ hdiag

/-- The register load writes the registers up to `x` or is rejected. -/
theorem frame_execLdVxMemI {x : Reg} (hreg : ∀ r : Reg, r ≤ x → c (.reg r)) (hdiag : c .diag)
    (h : execLdVxMemI x s = .next t) : Frame c s t := by
  unfold execLdVxMemI at h
  split at h <;> cases h
  · refine (frame_setRegs s _ fun r hr => hreg r ?_).trans (frame_advance _)
    rw [blockBytes_length] at hr
    exact Nat.le_of_lt_succ hr
  · exact frame_reject s _ _ hdiag

end ExecFrame

/-- Executing an instruction changes no part outside `mayChange`. -/
theorem frame_exec {i : Instr} {s t : State} (h : exec i s = .next t) : Frame (mayChange i) s t := by
  cases i with
  | cls =>
    cases h
    exact ((frame_clearFb s fun q => .inr ⟨q, rfl⟩).trans (frame_emitDisplay _ _ (.inl rfl))).trans (frame_advance _)
  | ret => exact frame_execRet (.inl rfl) (.inr rfl) h
  | call => exact frame_execCall (.inl rfl) (fun k => .inr (.inl ⟨k, rfl⟩)) (.inr (.inr rfl)) h
  | jp | jpV0Nnn => cases h; exact frame_jumpTo s _ _ rfl
  | seVxKk | sneVxKk | seVxVy | sneVxVy => cases h; exact frame_advanceSkipIf s _
  | ldVxKk | addVxKk | ldVxVy | orVxVy | andVxVy | xorVxVy | ldVxDt => cases h; exact frame_advance_setReg s _ rfl
  | addVxVy | subVxVy | shrVx | subnVxVy | shlVx => cases h; exact frame_writeResultThenFlag s _ _ (.inl rfl) (.inr rfl)
  | rndVxKk => cases h; exact (frame_drawn s (.inr rfl)).trans (frame_loadMasked _ _ _ (.inl rfl))
  | drwVxVyN | skpVx | sknpVx | ldVxK | ldFVx | ldBVx => cases h; exact frame_reject s _ _ rfl
  | ldDtVx => cases h; exact Frame.trans (frame_setDt s _ rfl) (frame_advance _)
  | ldStVx => cases h; exact Frame.trans (frame_setSt s _ rfl) (frame_advance _)
  | ldINnn => cases h; exact frame_advance_setIdx s _ rfl
  | addIVx =>
    cases h
    exact ((frame_setIdx s _ (.inl rfl)).trans (frame_writeIndexFlag _ _ (.inr rfl))).trans (frame_advance _)
  | ldMemIVx => exact frame_execLdMemIVx (fun a => .inl ⟨a, rfl⟩) (.inr rfl) h
  | ldVxMemI => exact frame_execLdVxMemI (fun r hr => .inl ⟨r, hr, rfl⟩) (.inr rfl) h

/-! ### The whole step -/

/-- A fetched word that decodes to an instruction is executed (R110). -/
theorem step_eq_exec {s : State} {i : Instr} (hf : s.ca.toNat + 1 < s.cfg.memSize)
    (hd : decode s.cfg (s.ramByte s.ca.toNat) (s.ramByte (s.ca.toNat + 1)) = .ok i) : step s = exec i s := by
  have hfetch : s.fetch = some (s.ramByte s.ca.toNat, s.ramByte (s.ca.toNat + 1)) := (fetch_some_iff s _).2 ⟨hf, rfl⟩
  simp only [step, hfetch, hd]

/-- A step changes a part only by the instruction it executes: the two handlers that execute none write the diagnostic output alone. -/
theorem step_same {s t : State} {p : Part} (hp : p ≠ .diag) (h : step s = .next t)
    (hi : ∀ i, s.ca.toNat + 1 < s.cfg.memSize →
      decode s.cfg (s.ramByte s.ca.toNat) (s.ramByte (s.ca.toNat + 1)) = .ok i → ¬ mayChange i p) : p.same s t := by
  obtain ⟨-, rfl⟩ | ⟨hf, ⟨_, -, rfl⟩ | ⟨i, hd, hexec⟩⟩ := step_next_cases h
  · exact frame_rejectWith (c := (· = .diag)) s _ _ rfl p hp
  · exact frame_rejectWith (c := (· = .diag)) s _ _ rfl p hp
  · exact frame_exec hexec p (hi i hf hd)

/-! ### The load -/

/-- An accepted load sends `clear()` and then paints the framebuffer as it is after the load (R220). -/
theorem loadImage_display (bytes : List Byte) (s : State) :
    (loadImage bytes s).display = s.display ++ [.clear, .update (loadImage bytes s).fb] :=
  List.append_assoc s.display [.clear] [.update []]

theorem loadImage_pixel (bytes : List Byte) (s : State) (p : Nat) : (loadImage bytes s).pixel p = 0 := rfl

/-- The image stands at `PROG_BASE` onward after an accepted load (R220). -/
theorem loadImage_ramByte_image {bytes : List Byte} (s : State) {k : Nat} (h : k < bytes.length) :
    (loadImage bytes s).ramByte (Config.progBase + k) = bytes[k] := by
  rw [loadImage_ramByte, dif_pos ⟨Nat.le_add_right _ _, Nat.add_lt_add_left h _⟩]
  simp only [Nat.add_sub_cancel_left]

/-- The move of an accepted load goes to the loaded state. -/
theorem applyMove_load_of_ok {src : LoadSource} {s t : State} (h : load src s = .ok t) : applyMove (.load src) s = .next t := by
  simp only [applyMove, h]

/-- The move of a failed load leaves the state as it was (R226). -/
theorem applyMove_load_of_error {src : LoadSource} {e : LoadError} {s : State} (h : load src s = .error e) :
    applyMove (.load src) s = .next s := by
  simp only [applyMove, h]

end Machine

open Machine

/-- Settles O48: RND counts one draw when it executes, and no other instruction and neither handler can change the counter. -/
theorem randomPortCalledOnlyByRnd : Obligations.RandomPortCalledOnlyByRnd := by
  intro s t h
  constructor
  · rintro ⟨x, kk, hf, hd⟩
    rw [step_eq_exec hf hd] at h
    cases h
    rfl
  · intro hno
    refine step_same (p := .draws) nofun h fun i hf hd hi => ?_
    obtain ⟨x, kk, rfl⟩ := (mayChange_draws_iff i).1 hi
    exact hno ⟨x, kk, hf, hd⟩

/-- Settles O49: CLS sends one `clear()` when it executes and no other step can change the trace; a load sends what `loadImage_display` says
or leaves the state, and a tick touches the timers alone. -/
theorem displayPortEvents : Obligations.DisplayPortEvents := by
  refine ⟨fun s t h => ⟨?cls, ?noCls⟩, ?accepted, ?tick, ?failed⟩
  case cls =>
    rintro ⟨hf, hd⟩
    rw [step_eq_exec hf hd] at h
    cases h
    rfl
  case noCls =>
    intro hno
    refine step_same (p := .display) nofun h fun i hf hd hi => ?_
    obtain rfl := (mayChange_display_iff i).1 hi
    exact hno ⟨hf, hd⟩
  case accepted =>
    intro src s t h
    obtain ⟨bytes, -, -, rfl⟩ := load_ok h
    exact loadImage_display bytes s
  case tick =>
    intro s t h
    cases h
    rfl
  case failed =>
    intro src e s t he h
    rw [applyMove_load_of_error he] at h
    cases h
    rfl

/-- Settles O55: the two failures are the loader's own checks, and the move of any failed load is the same state; an image that fits is loaded by
`loadImage`, which stores its bytes at `PROG_BASE`, blanks the framebuffer and sends two events. -/
theorem loadCopiesImageOrFails : Obligations.LoadCopiesImageOrFails := by
  intro bytes s
  refine ⟨load_unreadable s, load_tooLong s bytes, fun _ _ => applyMove_load_of_error, fun hfits => ?accepted⟩
  case accepted =>
    have hload : load (.image bytes) s = .ok (loadImage bytes s) := load_fits s bytes hfits
    refine ⟨_, hload, applyMove_load_of_ok hload, fun _ => loadImage_ramByte_image s, loadImage_pixel bytes s,
      loadImage_display bytes s, rfl, frame_loadImage s bytes ?image ?pixels (.inl rfl)⟩
    case image => exact fun k hk => .inr (.inr ⟨k, hk, rfl⟩)
    case pixels => exact fun q => .inr (.inl ⟨q, rfl⟩)

end Sys2Proof
end

section
/-! SUPPORT. Completion, of each branching meaning and of the step's three outcomes; and what each cell of the created machine reads. -/

namespace Sys2Proof

namespace Machine

/-! ### Completion -/

/-- A `ca` whose two bytes do not both exist goes to the FETCH_RANGE handler (R112). -/
theorem step_eq_fetchOutOfRange {s : State} (h : s.cfg.memSize ≤ s.ca.toNat + 1) : step s = .next (fetchOutOfRange s) := by
  simp only [step, (fetch_none_iff s).2 h]

section Completion

variable (s : State)

/-- RET completes on an empty stack, by the reject path, and on any other. -/
theorem execRet_completes : ∃ t, execRet s = .next t := by
  unfold execRet
  split <;> exact ⟨_, rfl⟩

/-- CALL completes on a full stack, by the reject path, and on any other. -/
theorem execCall_completes (nnn : Imm12) : ∃ t, execCall nnn s = .next t := by
  unfold execCall
  split <;> exact ⟨_, rfl⟩

/-- The register dump completes, whether its block fits or is rejected. -/
theorem execLdMemIVx_completes (x : Reg) : ∃ t, execLdMemIVx x s = .next t := by
  unfold execLdMemIVx
  split <;> exact ⟨_, rfl⟩

/-- The register load completes, whether its block fits or is rejected. -/
theorem execLdVxMemI_completes (x : Reg) : ∃ t, execLdVxMemI x s = .next t := by
  unfold execLdVxMemI
  split <;> exact ⟨_, rfl⟩

/-- Every instruction completes: four choose between two next states, and each of the others answers one outright (R119). -/
theorem exec_completes (i : Instr) : ∃ t, exec i s = .next t := by
  cases i with
  | ret => exact execRet_completes s
  | call nnn => exact execCall_completes s nnn
  | ldMemIVx x => exact execLdMemIVx_completes s x
  | ldVxMemI x => exact execLdVxMemI_completes s x
  | _ => exact ⟨_, rfl⟩

/-- The step completes: both handlers answer a next state, and so does the instruction a fetched word decodes to. -/
theorem step_completes : ∃ t, step s = .next t := by
  by_cases hf : s.ca.toNat + 1 < s.cfg.memSize
  · cases hd : decode s.cfg (s.ramByte s.ca.toNat) (s.ramByte (s.ca.toNat + 1)) with
    | ok i =>
      rw [step_eq_exec hf hd]
      exact exec_completes s i
    | error e => exact ⟨_, step_eq_illegalWord hf hd⟩
  · exact ⟨_, step_eq_fetchOutOfRange (Nat.le_of_not_lt hf)⟩

end Completion

/-! ### The created machine -/

@[simp] theorem create_reg (c : Config) (r : Reg) : (State.create c).reg r = 0 := Vector.getElem_replicate r.isLt

theorem create_stack_getElem (c : Config) (k : Fin 16) : (State.create c).stack[k] = 0 := Vector.getElem_replicate k.isLt

@[simp] theorem create_ramByte (c : Config) (a : Nat) : (State.create c).ramByte a = 0 := MemoryLaws.read_nil a

@[simp] theorem create_pixel (c : Config) (p : Nat) : (State.create c).pixel p = 0 := MemoryLaws.read_nil p

end Machine

open Machine

/-- Settles O12: every instruction completes, and the step is one of two handlers or a completing instruction. -/
theorem everyStepAndInstructionCompletes : Obligations.EveryStepAndInstructionCompletes :=
  ⟨step_completes, fun i s => exec_completes s i⟩

/-- Settles O51: the created machine's scalar parts are as written there; its register file and stack are all 0, and neither memory nor
framebuffer lists a cell. -/
theorem creationZeroesAllButCa : Obligations.CreationZeroesAllButCa :=
  ⟨rfl, fun c => ⟨rfl, rfl, create_reg c, rfl, create_stack_getElem c, create_ramByte c, rfl, rfl, create_pixel c, rfl⟩⟩

end Sys2Proof
end

section
/-! SUPPORT. The decode tree read backwards: what a word that decodes says of its instruction, which words decode to none, and the row of the
opcode map a word selects. -/

namespace Sys2Proof

/-! ### Words that decode -/

/-- Decoding the two bytes of a well-formed instruction gives it back. -/
theorem decode_encode {c : Config} {i : Instr} (h : i.wellFormed c = true) : decode c (encode i).1 (encode i).2 = .ok i := by
  rw [decode, encode, wordOf_bytes, decodeWord_encodeWord h]

/-- `i` is a well-formed instruction and `w` is its word. -/
def IsInstrOf (c : Config) (w : Word) (i : Instr) : Prop := i.wellFormed c = true ∧ encodeWord i = w

section SubDecoders

variable (c : Config) {nnn : Imm12} {x y : Reg} {n : Nibble} {kk : Byte} {i : Instr}

theorem decodeClass0_ok (h : decodeClass0 nnn = .ok i) : IsInstrOf c (wordNNN 0x0 nnn) i := by
  unfold decodeClass0 at h
  split at h <;> cases h <;> exact ⟨rfl, rfl⟩

theorem decodeClass8_ok (h : decodeClass8 x y n = .ok i) : IsInstrOf c (wordXYN 0x8 x y n) i := by
  unfold decodeClass8 at h
  split at h <;> cases h <;> exact ⟨rfl, rfl⟩

theorem decodeClassE_ok (h : decodeClassE x kk = .ok i) : IsInstrOf c (wordXKK 0xE x kk) i := by
  unfold decodeClassE at h
  split at h <;> cases h <;> exact ⟨rfl, rfl⟩

theorem decodeClassF_ok (h : decodeClassF x kk = .ok i) : IsInstrOf c (wordXKK 0xF x kk) i := by
  unfold decodeClassF at h
  split at h <;> cases h <;> exact ⟨rfl, rfl⟩

end SubDecoders

section OfClass

variable {w : Word} {cls : Nibble} (h : fieldClass w = cls)

include h

/-- A word of class `cls` is what each format builds from its fields. -/
theorem wordNNN_of_class : wordNNN cls (fieldNnn w) = w := h ▸ wordNNN_fields w

theorem wordXKK_of_class : wordXKK cls (fieldX w) (fieldKk w) = w := h ▸ wordXKK_fields w

theorem wordXYN_of_class : wordXYN cls (fieldX w) (fieldY w) (fieldN w) = w := h ▸ wordXYN_fields w

end OfClass

/-- A word that decodes is the word of the instruction it decodes to: its class's format holds every bit of the word. -/
theorem isInstrOf_of_decodeWord {c : Config} {w : Word} {i : Instr} (h : decodeWord c w = .ok i) : IsInstrOf c w i := by
  unfold decodeWord at h
  split at h
  case h_1 hcl => exact wordNNN_of_class hcl ▸ decodeClass0_ok c h
  case h_2 hcl | h_3 hcl | h_11 hcl | h_12 hcl =>
    cases h
    exact ⟨rfl, wordNNN_of_class hcl⟩
  case h_4 hcl | h_5 hcl | h_7 hcl | h_8 hcl | h_13 hcl =>
    cases h
    exact ⟨rfl, wordXKK_of_class hcl⟩
  case h_6 hcl =>
    split at h <;> cases h
    next hn =>
      have hw := wordXYN_of_class hcl
      rw [hn] at hw
      exact ⟨rfl, hw⟩
  case h_9 hcl => exact wordXYN_of_class hcl ▸ decodeClass8_ok c h
  case h_10 hcl =>
    split at h <;> cases h
    next hn => exact ⟨by simpa [Instr.wellFormed, ← Bool.not_eq_true, Classical.or_iff_not_imp_left] using hn, wordXYN_of_class hcl⟩
  case h_14 hcl =>
    cases h
    exact ⟨rfl, wordXYN_of_class hcl⟩
  case h_15 hcl => exact wordXKK_of_class hcl ▸ decodeClassE_ok c h
  case h_16 =>
    have hcl : fieldClass w = 0xF := by simp only [imp_false] at *; bv_omega
    exact wordXKK_of_class hcl ▸ decodeClassF_ok c h

/-! ### Words that do not -/

/-- The words R87 lists under a class, and class 9's under `CLASS9_CHECKS_N` (D10). -/
def ListedUnder (c : Config) (w : Word) : DecodeReject → Prop
  | .illegalClass0 => fieldClass w = 0x0 ∧ fieldNnn w ∉ [0x0E0, 0x0EE]
  | .illegalClass5 => fieldClass w = 0x5 ∧ fieldN w ≠ 0
  | .illegalClass8 => fieldClass w = 0x8 ∧ fieldN w ∈ [0x8, 0x9, 0xA, 0xB, 0xC, 0xD, 0xF]
  | .illegalClass9 => fieldClass w = 0x9 ∧ c.class9ChecksN = true ∧ fieldN w ≠ 0
  | .illegalClassE => fieldClass w = 0xE ∧ fieldKk w ∉ [0x9E, 0xA1]
  | .illegalClassF => fieldClass w = 0xF ∧ fieldKk w ∉ [0x07, 0x0A, 0x15, 0x18, 0x1E, 0x29, 0x33, 0x55, 0x65]

section SubDecoders

variable {nnn : Imm12} {x y : Reg} {n : Nibble} {kk : Byte} {e : DecodeReject}

theorem decodeClass0_error_iff : decodeClass0 nnn = .error e ↔ e = .illegalClass0 ∧ nnn ∉ [0x0E0, 0x0EE] := by
  unfold decodeClass0
  split <;> simp_all
  exact eq_comm

/-- The trailing nibbles R170 lists are those that select none of the nine operations. -/
theorem aluNibble_illegal_iff : ∀ {n : Nibble},
    n ∈ [0x8, 0x9, 0xA, 0xB, 0xC, 0xD, 0xF] ↔ n ∉ [0x0, 0x1, 0x2, 0x3, 0x4, 0x5, 0x6, 0x7, 0xE] := by
  decide

theorem decodeClass8_error_iff : decodeClass8 x y n = .error e ↔ e = .illegalClass8 ∧ n ∈ [0x8, 0x9, 0xA, 0xB, 0xC, 0xD, 0xF] := by
  rw [aluNibble_illegal_iff]
  unfold decodeClass8
  split <;> simp_all
  exact eq_comm

theorem decodeClassE_error_iff : decodeClassE x kk = .error e ↔ e = .illegalClassE ∧ kk ∉ [0x9E, 0xA1] := by
  unfold decodeClassE
  split <;> simp_all
  exact eq_comm

theorem decodeClassF_error_iff :
    decodeClassF x kk = .error e ↔ e = .illegalClassF ∧ kk ∉ [0x07, 0x0A, 0x15, 0x18, 0x1E, 0x29, 0x33, 0x55, 0x65] := by
  unfold decodeClassF
  split <;> simp_all
  exact eq_comm
end SubDecoders

/-- The tree rejects a word under a name exactly where R87 lists the word there. -/
theorem decodeWord_error_iff {c : Config} {w : Word} {e : DecodeReject} : decodeWord c w = .error e ↔ ListedUnder c w e := by
  unfold decodeWord
  split
  case h_1 hcl => cases e <;> simp [ListedUnder, hcl, decodeClass0_error_iff]
  case h_9 hcl => cases e <;> simp [ListedUnder, hcl, decodeClass8_error_iff]
  case h_15 hcl => cases e <;> simp [ListedUnder, hcl, decodeClassE_error_iff]
  case h_16 =>
    have hcl : fieldClass w = 0xF := by simp only [imp_false] at *; bv_omega
    cases e <;> simp [ListedUnder, hcl, decodeClassF_error_iff]
  case h_6 hcl => split <;> cases e <;> simp_all [ListedUnder]
  case h_10 hcl => split <;> cases e <;> simp_all [ListedUnder]
  case h_2 hcl | h_3 hcl | h_4 hcl | h_5 hcl | h_7 hcl | h_8 hcl | h_11 hcl | h_12 hcl | h_13 hcl | h_14 hcl =>
    cases e <;> simp [ListedUnder, hcl]

/-- A word of class 0 is its low 12 bits. -/
theorem eq_iff_fieldNnn_eq {w : Word} {nnn : Imm12} (h : fieldClass w = 0x0) : w = wordNNN 0x0 nnn ↔ fieldNnn w = nnn := by
  constructor
  · rintro rfl
    exact fieldNnn_wordNNN _ _
  · rintro rfl
    exact (wordNNN_of_class h).symm

/-! ### The rows of the opcode map -/

open Laws.OpcodeRowOfWord in
/-- An instruction's word selects its row: the lemmas of `Laws.OpcodeRowOfWord`, one per constructor, as one. -/
theorem row_selects_encodeWord (i : Instr) : i.row.selects (encodeWord i) = true := by
  cases i with
  | cls => exact cls
  | ret => exact ret
  | jp | call | ldINnn | jpV0Nnn => exact selects_NNN _ _ _
  | seVxKk | sneVxKk | ldVxKk | addVxKk | rndVxKk => exact selects_XKK _ _ _ _
  | sneVxVy | drwVxVyN => exact selects_XYZ _ _ _ _ _
  | skpVx | sknpVx | ldVxDt | ldVxK | ldDtVx | ldStVx | addIVx | ldFVx | ldBVx | ldMemIVx | ldVxMemI => exact selects_XSS _ _ _ _
  | seVxVy | ldVxVy | orVxVy | andVxVy | xorVxVy | addVxVy | subVxVy | shrVx | subnVxVy | shlVx => exact selects_XYN _ _ _ _ _

/-- The map names every pattern's row. -/
theorem row_mem_opcodeMap (i : Instr) : i.row ∈ opcodeMap := by
  cases i <;> simp [opcodeMap, Instr.row]

theorem exists_row_eq_of_mem_opcodeMap {r : OpcodeRow} (h : r ∈ opcodeMap) : ∃ i : Instr, i.row = r := by
  rcases List.mem_append.1 h with h | h
  all_goals
    obtain ⟨i, -, hi⟩ := List.mem_map.1 h
    exact ⟨i, hi⟩

section Selects

variable {w pattern mask : Word} {c n : Nibble} {kk : Byte} {st : RowStatus}

/-- A slice the row's mask covers is the pattern's in every word that selects the row. -/
theorem extractLsb'_of_selects {j k : Nat} (h : OpcodeRow.selects ⟨pattern, mask, st⟩ w = true)
    (hm : mask.extractLsb' j k = BitVec.allOnes k) : w.extractLsb' j k = pattern.extractLsb' j k := by
  have hw : w &&& mask = pattern := beq_iff_eq.1 h
  rw [← hw, BitVec.extractLsb'_and, hm, BitVec.and_allOnes]

/-- A word that selects a row is its format's word, of the pattern's fixed fields and the word's own open ones. -/
theorem wordNNN_of_selects (h : OpcodeRow.selects ⟨c ++ 0#12, 0xF#4 ++ 0#12, st⟩ w = true) : wordNNN c (fieldNnn w) = w :=
  wordNNN_of_class ((extractLsb'_of_selects h (extract_append_high _ _)).trans (extract_append_high _ _))

theorem wordXKK_of_selects (h : OpcodeRow.selects ⟨c ++ 0#12, 0xF#4 ++ 0#12, st⟩ w = true) :
    wordXKK c (fieldX w) (fieldKk w) = w :=
  wordXKK_of_class ((extractLsb'_of_selects h (extract_append_high _ _)).trans (extract_append_high _ _))

theorem wordXYZ_of_selects (h : OpcodeRow.selects ⟨c ++ 0#12, 0xF#4 ++ 0#12, st⟩ w = true) :
    wordXYN c (fieldX w) (fieldY w) (fieldN w) = w :=
  wordXYN_of_class ((extractLsb'_of_selects h (extract_append_high _ _)).trans (extract_append_high _ _))

theorem wordXSS_of_selects (h : OpcodeRow.selects ⟨c ++ (0#4 ++ kk), 0xF#4 ++ (0#4 ++ 0xFF#8), st⟩ w = true) :
    wordXKK c (fieldX w) kk = w := by
  have hc : fieldClass w = c := (extractLsb'_of_selects h (extract_append_high _ _)).trans (extract_append_high _ _)
  have hk : fieldKk w = kk := (extractLsb'_of_selects h (by decide)).trans (fieldKk_wordXKK c 0 kk)
  exact hk ▸ wordXKK_of_class hc

theorem wordXYN_of_selects (h : OpcodeRow.selects ⟨c ++ (0#4 ++ (0#4 ++ n)), 0xF#4 ++ (0#4 ++ (0#4 ++ 0xF#4)), st⟩ w = true) :
    wordXYN c (fieldX w) (fieldY w) n = w := by
  have hc : fieldClass w = c := (extractLsb'_of_selects h (extract_append_high _ _)).trans (extract_append_high _ _)
  have hn : fieldN w = n := (extractLsb'_of_selects h (by decide)).trans (fieldN_wordXYN c 0 0 n)
  exact hn ▸ wordXYN_of_class hc

theorem eq_of_selects (h : OpcodeRow.selects ⟨pattern, BitVec.allOnes 16, st⟩ w = true) : pattern = w := by
  have hw : w &&& BitVec.allOnes 16 = pattern := beq_iff_eq.1 h
  rw [← hw, BitVec.and_allOnes]

end Selects

/-- A word that selects a row is the word of an instruction of that row: its pattern's, with the word's own operand fields. -/
theorem exists_instr_of_selects (i : Instr) {w : Word} (h : i.row.selects w = true) : ∃ j : Instr, j.row = i.row ∧ encodeWord j = w := by
  cases i with
  | cls => exact ⟨.cls, rfl, eq_of_selects h⟩
  | ret => exact ⟨.ret, rfl, eq_of_selects h⟩
  | jp => exact ⟨.jp (fieldNnn w), rfl, wordNNN_of_selects h⟩
  | call => exact ⟨.call (fieldNnn w), rfl, wordNNN_of_selects h⟩
  | seVxKk => exact ⟨.seVxKk (fieldX w) (fieldKk w), rfl, wordXKK_of_selects h⟩
  | sneVxKk => exact ⟨.sneVxKk (fieldX w) (fieldKk w), rfl, wordXKK_of_selects h⟩
  | seVxVy => exact ⟨.seVxVy (fieldX w) (fieldY w), rfl, wordXYN_of_selects h⟩
  | ldVxKk => exact ⟨.ldVxKk (fieldX w) (fieldKk w), rfl, wordXKK_of_selects h⟩
  | addVxKk => exact ⟨.addVxKk (fieldX w) (fieldKk w), rfl, wordXKK_of_selects h⟩
  | ldVxVy => exact ⟨.ldVxVy (fieldX w) (fieldY w), rfl, wordXYN_of_selects h⟩
  | orVxVy => exact ⟨.orVxVy (fieldX w) (fieldY w), rfl, wordXYN_of_selects h⟩
  | andVxVy => exact ⟨.andVxVy (fieldX w) (fieldY w), rfl, wordXYN_of_selects h⟩
  | xorVxVy => exact ⟨.xorVxVy (fieldX w) (fieldY w), rfl, wordXYN_of_selects h⟩
  | addVxVy => exact ⟨.addVxVy (fieldX w) (fieldY w), rfl, wordXYN_of_selects h⟩
  | subVxVy => exact ⟨.subVxVy (fieldX w) (fieldY w), rfl, wordXYN_of_selects h⟩
  | shrVx => exact ⟨.shrVx (fieldX w) (fieldY w), rfl, wordXYN_of_selects h⟩
  | subnVxVy => exact ⟨.subnVxVy (fieldX w) (fieldY w), rfl, wordXYN_of_selects h⟩
  | shlVx => exact ⟨.shlVx (fieldX w) (fieldY w), rfl, wordXYN_of_selects h⟩
  | sneVxVy => exact ⟨.sneVxVy (fieldX w) (fieldY w) (fieldN w), rfl, wordXYZ_of_selects h⟩
  | ldINnn => exact ⟨.ldINnn (fieldNnn w), rfl, wordNNN_of_selects h⟩
  | jpV0Nnn => exact ⟨.jpV0Nnn (fieldNnn w), rfl, wordNNN_of_selects h⟩
  | rndVxKk => exact ⟨.rndVxKk (fieldX w) (fieldKk w), rfl, wordXKK_of_selects h⟩
  | drwVxVyN => exact ⟨.drwVxVyN (fieldX w) (fieldY w) (fieldN w), rfl, wordXYZ_of_selects h⟩
  | skpVx => exact ⟨.skpVx (fieldX w), rfl, wordXSS_of_selects h⟩
  | sknpVx => exact ⟨.sknpVx (fieldX w), rfl, wordXSS_of_selects h⟩
  | ldVxDt => exact ⟨.ldVxDt (fieldX w), rfl, wordXSS_of_selects h⟩
  | ldVxK => exact ⟨.ldVxK (fieldX w), rfl, wordXSS_of_selects h⟩
  | ldDtVx => exact ⟨.ldDtVx (fieldX w), rfl, wordXSS_of_selects h⟩
  | ldStVx => exact ⟨.ldStVx (fieldX w), rfl, wordXSS_of_selects h⟩
  | addIVx => exact ⟨.addIVx (fieldX w), rfl, wordXSS_of_selects h⟩
  | ldFVx => exact ⟨.ldFVx (fieldX w), rfl, wordXSS_of_selects h⟩
  | ldBVx => exact ⟨.ldBVx (fieldX w), rfl, wordXSS_of_selects h⟩
  | ldMemIVx => exact ⟨.ldMemIVx (fieldX w), rfl, wordXSS_of_selects h⟩
  | ldVxMemI => exact ⟨.ldVxMemI (fieldX w), rfl, wordXSS_of_selects h⟩

/-- The default parameters restrict no operand. -/
theorem wellFormed_standard (i : Instr) : i.wellFormed Config.standard = true := by
  cases i <;> rfl

/-- With the default parameters a word that selects a row of the map decodes to an instruction of that row. -/
theorem exists_decodeWord_of_selects {w : Word} {r : OpcodeRow} (hr : r ∈ opcodeMap) (h : r.selects w = true) :
    ∃ i, decodeWord Config.standard w = .ok i ∧ i.row = r := by
  obtain ⟨i, rfl⟩ := exists_row_eq_of_mem_opcodeMap hr
  obtain ⟨j, hrow, rfl⟩ := exists_instr_of_selects i h
  exact ⟨j, decodeWord_encodeWord (wellFormed_standard j), hrow⟩

/-! ### The obligations -/

/-- Settles O3: the two bytes make the word again, and the tree decodes an instruction's own word. -/
theorem decodeOfEncodeIsIdentity : Obligations.DecodeOfEncodeIsIdentity := fun _ _ => decode_encode

/-- Settles O4: the word of the decoded instruction is the fetched word, and so are its bytes. -/
theorem encodeOfDecodeIsIdentity : Obligations.EncodeOfDecodeIsIdentity := by
  intro c byte0 byte1 i h
  obtain ⟨hwf, hword⟩ := isInstrOf_of_decodeWord h
  exact ⟨hwf, by rw [encode, hword, byteHi_wordOf, byteLo_wordOf]⟩

/-- Settles O5: an instruction's word selects its row, a word that selects a row decodes to an instruction of it, and so a word that selects
two decodes to an instruction of both. -/
theorem decoderFollowsOpcodeMap : Obligations.DecoderFollowsOpcodeMap := by
  refine ⟨rfl, fun w i hd => ⟨row_mem_opcodeMap i, ?ownRow⟩, fun w r => exists_decodeWord_of_selects, fun w r r' hr hr' hs hs' => ?oneRow⟩
  case ownRow =>
    obtain ⟨-, rfl⟩ := isInstrOf_of_decodeWord hd
    exact row_selects_encodeWord i
  case oneRow =>
    obtain ⟨i, hd, rfl⟩ := exists_decodeWord_of_selects hr hs
    obtain ⟨i', hd', rfl⟩ := exists_decodeWord_of_selects hr' hs'
    rw [hd, Except.ok.injEq] at hd'
    rw [hd']

/-- Settles O2: the tree evaluates to the spec's answer on each of the seven pairs of bytes. -/
theorem workedDecodeExamples : Obligations.WorkedDecodeExamples := by
  unfold Obligations.WorkedDecodeExamples
  decide

/-- Settles O6: the tree rejects exactly the listed words, and R87's two exceptions of class 0, given there as words, are those low 12 bits. -/
theorem illegalWordsAreTheListedOnes : Obligations.IllegalWordsAreTheListedOnes := by
  intro w
  refine ⟨decodeWord_error_iff.trans (and_congr_right fun hcl => ?class0), decodeWord_error_iff, decodeWord_error_iff,
    decodeWord_error_iff, decodeWord_error_iff, decodeWord_error_iff.not.2 ?class9⟩
  case class0 =>
    have h0 : w = 0x00E0 ↔ fieldNnn w = 0x0E0 := eq_iff_fieldNnn_eq (nnn := 0x0E0) hcl
    have h1 : w = 0x00EE ↔ fieldNnn w = 0x0EE := eq_iff_fieldNnn_eq (nnn := 0x0EE) hcl
    rw [Ne, Ne, h0, h1, List.mem_pair, not_or]
  case class9 =>
    rintro ⟨-, hc, -⟩
    exact nomatch hc

end Sys2Proof
end

section
/-! SUPPORT. Counting words: R90's count by two bytes is the number of words, a row of the opcode map is selected by as many words as its open bits
make, and a class of R90 has the words of the rows of its status. -/

namespace Sys2Proof

open Finset

/-- How many words satisfy `p`. -/
def wordCount (p : Word → Bool) : Nat := #{w | p w = true}

/-! ### The count by bytes -/

theorem sum_map_range_eq_sum (f : Nat → Nat) (n : Nat) : ((List.range n).map f).sum = ∑ i ∈ range n, f i := by
  rw [← List.sum_toFinset f List.nodup_range, List.toFinset_range]

theorem countP_range_eq_sum (p : Nat → Bool) (n : Nat) : (List.range n).countP p = ∑ i ∈ range n, if p i = true then 1 else 0 := by
  rw [List.countP_eq_length_filter, ← List.toFinset_card_of_nodup (List.nodup_range.filter p), List.toFinset_filter, List.toFinset_range,
    card_filter]

theorem sum_range_eq_sum_bitVec {n m : Nat} (hm : m = 2 ^ n) (f : BitVec n → Nat) : ∑ k ∈ range m, f (BitVec.ofNat n k) = ∑ b, f b := by
  rw [hm]
  rw [sum_range fun k => f (BitVec.ofNat n k)]
  exact (Fintype.sum_equiv BitVec.equivFin.toEquiv _ _ fun b => by simp [BitVec.equivFin]).symm

/-- Every word is met once, as its two bytes (R81). -/
theorem sum_countP_bytes_eq_wordCount (p : Word → Bool) :
    ((List.range 256).map fun byte0 =>
      (List.range 256).countP fun byte1 => p (wordOf (BitVec.ofNat 8 byte0) (BitVec.ofNat 8 byte1))).sum = wordCount p := by
  have hinner (b0 : Byte) : (List.range 256).countP (fun byte1 => p (wordOf b0 (BitVec.ofNat 8 byte1))) =
      ∑ b1, if p (wordOf b0 b1) = true then 1 else 0 := by
    rw [countP_range_eq_sum, sum_range_eq_sum_bitVec (by decide) fun b1 => if p (wordOf b0 b1) = true then 1 else 0]
  calc _ = ∑ b0, ∑ b1, if p (wordOf b0 b1) = true then 1 else 0 := by
        simp only [hinner, sum_map_range_eq_sum]
        rw [sum_range_eq_sum_bitVec (by decide) fun b0 => ∑ b1, if p (wordOf b0 b1) = true then 1 else 0]
    _ = ∑ b ∈ univ ×ˢ univ, if p (wordOf b.1 b.2) = true then 1 else 0 :=
      (sum_product univ univ fun b : Byte × Byte => if p (wordOf b.1 b.2) = true then 1 else 0).symm
    _ = ∑ w, if p w = true then 1 else 0 :=
      sum_nbij' (fun b => wordOf b.1 b.2) (fun w => (byteHi w, byteLo w)) (by simp) (by simp) (by simp) (by simp) (by simp)
    _ = wordCount p := (card_filter _ _).symm

/-! ### Words that select a row -/

/-- There are as many words of a kind as ways to build one. -/
theorem wordCount_eq_card {α : Type} [Fintype α] {f : α → Word} {p : Word → Bool} (hf : Function.Injective f)
    (hp : ∀ w, p w = true ↔ ∃ a, f a = w) : wordCount p = Fintype.card α := by
  have himage : ({w | p w = true} : Finset Word) = univ.image f := by
    ext w
    simp [hp]
  rw [wordCount, himage, card_image_of_injective _ hf, card_univ]

theorem card_bitVec (k : Nat) : Fintype.card (BitVec k) = 2 ^ k := by
  rw [Fintype.card_congr BitVec.equivFin.toEquiv, Fintype.card_fin]

section Rows

open Laws.OpcodeRowOfWord

variable (c n : Nibble) (kk : Byte) (st : RowStatus)

theorem wordCount_selects_NNN : wordCount (OpcodeRow.selects ⟨c ++ 0#12, 0xF#4 ++ 0#12, st⟩) = 4096 :=
  (wordCount_eq_card (Function.LeftInverse.injective (fieldNnn_wordNNN c)) fun w =>
    ⟨fun h => ⟨_, wordNNN_of_selects h⟩, by rintro ⟨nnn, rfl⟩; exact selects_NNN c nnn st⟩).trans (card_bitVec 12)

theorem wordCount_selects_XSS :
    wordCount (OpcodeRow.selects ⟨c ++ (0#4 ++ kk), 0xF#4 ++ (0#4 ++ 0xFF#8), st⟩) = 16 :=
  (wordCount_eq_card (f := fun x => wordXKK c x kk) (Function.LeftInverse.injective fun x => fieldX_wordXKK c x kk) fun w =>
    ⟨fun h => ⟨_, wordXSS_of_selects h⟩, by rintro ⟨x, rfl⟩; exact selects_XSS c x kk st⟩).trans (Fintype.card_fin 16)

theorem wordCount_selects_XYN :
    wordCount (OpcodeRow.selects ⟨c ++ (0#4 ++ (0#4 ++ n)), 0xF#4 ++ (0#4 ++ (0#4 ++ 0xF#4)), st⟩) = 256 :=
  have hinj : Function.LeftInverse (fun w => (fieldX w, fieldY w)) fun p : Reg × Reg => wordXYN c p.1 p.2 n := fun p => by simp
  (wordCount_eq_card hinj.injective fun w =>
    ⟨fun h => ⟨(_, _), wordXYN_of_selects h⟩, by rintro ⟨p, rfl⟩; exact selects_XYN c p.1 p.2 n st⟩).trans (by simp)

theorem wordCount_selects_exact (pattern : Word) : wordCount (OpcodeRow.selects ⟨pattern, BitVec.allOnes 16, st⟩) = 1 :=
  (wordCount_eq_card (f := fun _ : Unit => pattern) (fun _ _ _ => rfl) fun w =>
    ⟨fun h => ⟨(), eq_of_selects h⟩, by rintro ⟨_, rfl⟩; exact beq_iff_eq.2 (BitVec.and_allOnes)⟩).trans (by simp)

variable {st}

/-- A row whose pattern has no bit outside its mask is one of its format's rows. -/
theorem exists_pattern_NNN {p : Word} (h : OpcodeRow.selects ⟨p, 0xF#4 ++ 0#12, st⟩ p = true) : ∃ c : Nibble, p = c ++ 0#12 := by
  have hp := selects_NNN (fieldClass p) (fieldNnn p) st
  rw [wordNNN_fields] at hp
  exact ⟨_, (beq_iff_eq.1 h).symm.trans (beq_iff_eq.1 hp)⟩

theorem exists_pattern_XSS {p : Word} (h : OpcodeRow.selects ⟨p, 0xF#4 ++ (0#4 ++ 0xFF#8), st⟩ p = true) :
    ∃ (c : Nibble) (kk : Byte), p = c ++ (0#4 ++ kk) := by
  have hp := selects_XSS (fieldClass p) (fieldX p) (fieldKk p) st
  rw [wordXKK_fields] at hp
  exact ⟨_, _, (beq_iff_eq.1 h).symm.trans (beq_iff_eq.1 hp)⟩

theorem exists_pattern_XYN {p : Word} (h : OpcodeRow.selects ⟨p, 0xF#4 ++ (0#4 ++ (0#4 ++ 0xF#4)), st⟩ p = true) :
    ∃ c n : Nibble, p = c ++ (0#4 ++ (0#4 ++ n)) := by
  have hp := selects_XYN (fieldClass p) (fieldX p) (fieldY p) (fieldN p) st
  rw [wordXYN_fields] at hp
  exact ⟨_, _, (beq_iff_eq.1 h).symm.trans (beq_iff_eq.1 hp)⟩

end Rows

/-- The number of words that select a row with one of the map's four masks: 16 for each nibble the mask leaves open. -/
def OpcodeRow.size (r : OpcodeRow) : Nat :=
  if r.mask = 0xF000 then 4096 else if r.mask = 0xF00F then 256 else if r.mask = 0xF0FF then 16 else 1

theorem mask_and_pattern_of_mem_opcodeMap :
    ∀ r ∈ opcodeMap, (r.mask = 0xF000 ∨ r.mask = 0xF00F ∨ r.mask = 0xF0FF ∨ r.mask = 0xFFFF) ∧ r.selects r.pattern = true := by
  decide

theorem wordCount_selects_of_mem_opcodeMap {r : OpcodeRow} (h : r ∈ opcodeMap) : wordCount r.selects = r.size := by
  obtain ⟨hmask, hself⟩ := mask_and_pattern_of_mem_opcodeMap r h
  obtain ⟨p, m, st⟩ := r
  rcases hmask with rfl | rfl | rfl | rfl
  · obtain ⟨c, rfl⟩ := exists_pattern_NNN hself
    exact (wordCount_selects_NNN c st).trans rfl
  · obtain ⟨c, n, rfl⟩ := exists_pattern_XYN hself
    exact (wordCount_selects_XYN c n st).trans rfl
  · obtain ⟨c, kk, rfl⟩ := exists_pattern_XSS hself
    exact (wordCount_selects_XSS c kk st).trans rfl
  · exact (wordCount_selects_exact st p).trans rfl

/-! ### Words of a class of R90 -/

/-- The class of R90 that a row's words have. -/
def RowStatus.wordClass : RowStatus → WordClass
  | .exec => .exec
  | .stub => .notImplemented

theorem row_status_wordClass (i : Instr) : i.row.status.wordClass = if i.isStub = true then .notImplemented else .exec := by
  unfold Instr.isStub
  cases i.row.status <;> rfl

/-- The rows of a status. -/
def rowsOf (st : RowStatus) : Finset OpcodeRow := {r ∈ opcodeMap.toFinset | r.status = st}

theorem mem_rowsOf {st : RowStatus} {r : OpcodeRow} : r ∈ rowsOf st ↔ r ∈ opcodeMap ∧ r.status = st := by
  rw [rowsOf, mem_filter, List.mem_toFinset]

theorem RowStatus.wordClass_injective : Function.Injective RowStatus.wordClass := by
  intro a b h
  cases a <;> cases b <;> trivial

/-- A word has a status's class when it selects a row of that status. -/
theorem classify_eq_wordClass_iff (w : Word) (st : RowStatus) :
    classify Config.standard w = st.wordClass ↔ ∃ r ∈ rowsOf st, r.selects w = true := by
  simp only [mem_rowsOf]
  constructor
  · intro h
    unfold classify at h
    split at h
    case h_1 i hd =>
      rw [← row_status_wordClass] at h
      obtain ⟨-, rfl⟩ := isInstrOf_of_decodeWord hd
      exact ⟨i.row, ⟨row_mem_opcodeMap i, RowStatus.wordClass_injective h⟩, row_selects_encodeWord i⟩
    case h_2 => cases st <;> exact nomatch h
  · rintro ⟨r, ⟨hr, rfl⟩, hw⟩
    obtain ⟨i, hd, rfl⟩ := exists_decodeWord_of_selects hr hw
    rw [classify, hd, row_status_wordClass]

/-- The words of a class, counted row by row: no word selects two rows. -/
theorem wordCount_wordClass (st : RowStatus) :
    wordCount (fun w => classify Config.standard w == st.wordClass) = ∑ r ∈ rowsOf st, r.size := by
  have hdisj : (rowsOf st : Set OpcodeRow).PairwiseDisjoint fun r => ({w | r.selects w = true} : Finset Word) := by
    intro r hr r' hr' hne
    refine disjoint_left.2 fun w hw hw' => hne ?_
    obtain ⟨-, -, -, hone⟩ := decoderFollowsOpcodeMap
    exact hone w r r' (mem_rowsOf.1 hr).1 (mem_rowsOf.1 hr').1 (mem_filter.1 hw).2 (mem_filter.1 hw').2
  have hunion : ({w | (classify Config.standard w == st.wordClass) = true} : Finset Word) =
      (rowsOf st).biUnion fun r => {w | r.selects w = true} := by
    ext w
    simp [classify_eq_wordClass_iff]
  calc wordCount (fun w => classify Config.standard w == st.wordClass)
      = #((rowsOf st).biUnion fun r => {w | r.selects w = true}) := congrArg card hunion
    _ = ∑ r ∈ rowsOf st, wordCount r.selects := card_biUnion hdisj
    _ = ∑ r ∈ rowsOf st, r.size := sum_congr rfl fun r hr => wordCount_selects_of_mem_opcodeMap (mem_rowsOf.1 hr).1

/-- The three classes of R90 are all words. -/
theorem wordCount_classes (c : Config) :
    wordCount (fun w => classify c w == .exec) + wordCount (fun w => classify c w == .notImplemented) +
      wordCount (fun w => classify c w == .illegal) = 65536 := by
  have h := card_eq_sum_card_fiberwise (s := (univ : Finset Word)) (t := {.exec, .notImplemented, .illegal}) (f := classify c)
    (fun w _ => by cases h : classify c w <;> simp)
  rw [card_univ, card_bitVec, sum_insert (by decide), sum_insert (by decide), sum_singleton] at h
  simpa [wordCount, Nat.add_assoc] using h.symm

/-- Settles O7: the two-byte count of a class is its number of words; two classes are summed over their rows, and the third is the rest. -/
theorem wordClassificationCounts : Obligations.WordClassificationCounts := by
  have hbytes (k : WordClass) := sum_countP_bytes_eq_wordCount fun w => classify Config.standard w == k
  have hexec : wordCount (fun w => classify Config.standard w == .exec) = 43618 := (wordCount_wordClass .exec).trans (by decide)
  have hstub : wordCount (fun w => classify Config.standard w == .notImplemented) = 4176 := (wordCount_wordClass .stub).trans (by decide)
  have hillegal : wordCount (fun w => classify Config.standard w == .illegal) = 17742 := by
    have hall := wordCount_classes Config.standard
    omega
  exact ⟨(hbytes .exec).trans hexec, (hbytes .notImplemented).trans hstub, (hbytes .illegal).trans hillegal⟩

end Sys2Proof
end

section
/-! SUPPORT. The four meanings that branch, with what each answers; the diagnostic that is due and the reject path that answers it, for an
instruction and for the whole step; where an instruction and a step leave `ca`. -/

namespace Sys2Proof

namespace Machine

/-! ### The meanings that branch -/

section Branches

variable {s t : State} {nnn : Imm12} {x : Reg} {k : Fin 16}

theorem execRet_of_empty (h : s.sp.val = 0) : execRet s = .next (reject .stackUnderflow .ret s) := by
  simp only [execRet, (topEntry_none_iff s).2 h]

theorem execRet_of_entry (h : s.sp.val = k.val + 1) : execRet s = .next ((s.pop k).setCa (s.stack[k] + 2)) := by
  simp only [execRet, (topEntry_some_iff s k).2 h]

theorem execCall_of_full (h : s.sp.val = 16) : execCall nnn s = .next (reject .stackOverflow (.call nnn) s) := by
  simp only [execCall, (freeEntry_none_iff s).2 h]

theorem execCall_of_free (h : s.sp.val = k.val) : execCall nnn s = .next ((s.push k s.ca).setCa (zext16 nnn)) := by
  simp only [execCall, (freeEntry_some_iff s k).2 h]

theorem execLdMemIVx_of_fits (h : s.idx.toNat + x.val < s.cfg.memSize) :
    execLdMemIVx x s = .next (advance (s.setRam (Memory.writeBytes s.ram (blockBase s) (blockRegs x s)))) :=
  if_pos ((blockFits_iff s x).2 h)

theorem execLdMemIVx_of_memSize_le (h : s.cfg.memSize ≤ s.idx.toNat + x.val) :
    execLdMemIVx x s = .next (reject .memRange (.ldMemIVx x) s) :=
  if_neg fun hfits => Nat.not_lt.2 h ((blockFits_iff s x).1 hfits)

theorem execLdVxMemI_of_fits (h : s.idx.toNat + x.val < s.cfg.memSize) :
    execLdVxMemI x s = .next (advance (s.setRegs (blockBytes x s))) :=
  if_pos ((blockFits_iff s x).2 h)

theorem execLdVxMemI_of_memSize_le (h : s.cfg.memSize ≤ s.idx.toNat + x.val) :
    execLdVxMemI x s = .next (reject .memRange (.ldVxMemI x) s) :=
  if_neg fun hfits => Nat.not_lt.2 h ((blockFits_iff s x).1 hfits)

/-- Everything RET can do. -/
theorem execRet_next_cases (h : execRet s = .next t) :
    (s.sp.val = 0 ∧ t = reject .stackUnderflow .ret s) ∨
    ∃ k : Fin 16, s.sp.val = k.val + 1 ∧ t = (s.pop k).setCa (s.stack[k] + 2) := by
  cases htop : s.topEntry with
  | none =>
    rw [topEntry_none_iff] at htop
    rw [execRet_of_empty htop] at h
    cases h
    exact .inl ⟨htop, rfl⟩
  | some k =>
    rw [topEntry_some_iff] at htop
    rw [execRet_of_entry htop] at h
    cases h
    exact .inr ⟨k, htop, rfl⟩

/-- Everything CALL can do. -/
theorem execCall_next_cases (h : execCall nnn s = .next t) :
    (s.sp.val = 16 ∧ t = reject .stackOverflow (.call nnn) s) ∨
    ∃ k : Fin 16, s.sp.val = k.val ∧ t = (s.push k s.ca).setCa (zext16 nnn) := by
  cases hfree : s.freeEntry with
  | none =>
    rw [freeEntry_none_iff] at hfree
    rw [execCall_of_full hfree] at h
    cases h
    exact .inl ⟨hfree, rfl⟩
  | some k =>
    rw [freeEntry_some_iff] at hfree
    rw [execCall_of_free hfree] at h
    cases h
    exact .inr ⟨k, hfree, rfl⟩

/-- Everything the register dump can do. -/
theorem execLdMemIVx_next_cases (h : execLdMemIVx x s = .next t) :
    (s.cfg.memSize ≤ s.idx.toNat + x.val ∧ t = reject .memRange (.ldMemIVx x) s) ∨
    (s.idx.toNat + x.val < s.cfg.memSize ∧
      t = advance (s.setRam (Memory.writeBytes s.ram (blockBase s) (blockRegs x s)))) := by
  by_cases hfits : s.idx.toNat + x.val < s.cfg.memSize
  · rw [execLdMemIVx_of_fits hfits] at h
    cases h
    exact .inr ⟨hfits, rfl⟩
  · rw [execLdMemIVx_of_memSize_le (Nat.not_lt.1 hfits)] at h
    cases h
    exact .inl ⟨Nat.not_lt.1 hfits, rfl⟩

/-- Everything the register load can do. -/
theorem execLdVxMemI_next_cases (h : execLdVxMemI x s = .next t) :
    (s.cfg.memSize ≤ s.idx.toNat + x.val ∧ t = reject .memRange (.ldVxMemI x) s) ∨
    (s.idx.toNat + x.val < s.cfg.memSize ∧ t = advance (s.setRegs (blockBytes x s))) := by
  by_cases hfits : s.idx.toNat + x.val < s.cfg.memSize
  · rw [execLdVxMemI_of_fits hfits] at h
    cases h
    exact .inr ⟨hfits, rfl⟩
  · rw [execLdVxMemI_of_memSize_le (Nat.not_lt.1 hfits)] at h
    cases h
    exact .inl ⟨Nat.not_lt.1 hfits, rfl⟩

end Branches

/-! ### The diagnostic of an instruction -/

section InstrDiagnostic

variable {s t : State} {i : Instr} {k : DiagKind}

/-- An instruction whose condition in R211's table holds takes the reject path, whole (R213). -/
theorem exec_of_instrDiagnostic_eq_some (h : instrDiagnostic i s = some k) : exec i s = .next (reject k i s) := by
  cases i with
  | jp nnn =>
    have hjump : jumpDiagnostic nnn.toNat s = some k := h
    exact congrArg Host.Outcome.next (by rw [jumpTo_eq, targetNnn, hjump])
  | jpV0Nnn nnn =>
    have hjump : jumpDiagnostic (nnn.toNat + (s.reg 0).toNat) s = some k := h
    exact congrArg Host.Outcome.next (by rw [jumpTo_eq, targetV0Nnn, hjump])
  | call =>
    obtain ⟨hfull, hk⟩ := Option.ite_none_right_eq_some.1 h
    cases hk
    exact execCall_of_full hfull
  | ret =>
    obtain ⟨hempty, hk⟩ := Option.ite_none_right_eq_some.1 h
    cases hk
    exact execRet_of_empty hempty
  | ldMemIVx =>
    obtain ⟨hle, hk⟩ := Option.ite_none_right_eq_some.1 h
    cases hk
    exact execLdMemIVx_of_memSize_le hle
  | ldVxMemI =>
    obtain ⟨hle, hk⟩ := Option.ite_none_right_eq_some.1 h
    cases hk
    exact execLdVxMemI_of_memSize_le hle
  | drwVxVyN | skpVx | sknpVx | ldVxK | ldFVx | ldBVx =>
    cases h
    rfl
  | _ => exact nomatch h

/-- An instruction whose condition does not hold, or that has none, appends no record. -/
theorem exec_diag_of_instrDiagnostic_eq_none (h : instrDiagnostic i s = none) (hexec : exec i s = .next t) : t.diag = s.diag := by
  cases i with
  | jp nnn =>
    have hjump : jumpDiagnostic nnn.toNat s = none := h
    cases hexec
    rw [jumpTo_eq, targetNnn, hjump, setCa_diag]
  | jpV0Nnn nnn =>
    have hjump : jumpDiagnostic (nnn.toNat + (s.reg 0).toNat) s = none := h
    cases hexec
    rw [jumpTo_eq, targetV0Nnn, hjump, setCa_diag]
  | call =>
    obtain ⟨hfull, -⟩ | ⟨k, -, rfl⟩ := execCall_next_cases hexec
    · simp [instrDiagnostic, hfull] at h
    · rfl
  | ret =>
    obtain ⟨hempty, -⟩ | ⟨k, -, rfl⟩ := execRet_next_cases hexec
    · simp [instrDiagnostic, hempty] at h
    · rfl
  | ldMemIVx =>
    obtain ⟨hle, -⟩ | ⟨-, rfl⟩ := execLdMemIVx_next_cases hexec
    · simp [instrDiagnostic, blockDiagnostic, hle] at h
    · rfl
  | ldVxMemI =>
    obtain ⟨hle, -⟩ | ⟨-, rfl⟩ := execLdVxMemI_next_cases hexec
    · simp [instrDiagnostic, blockDiagnostic, hle] at h
    · rfl
  | drwVxVyN | skpVx | sknpVx | ldVxK | ldFVx | ldBVx => exact nomatch h
  | _ => exact frame_exec hexec .diag (by simp [mayChange])

end InstrDiagnostic

/-! ### The diagnostic of a step -/

section StepDiagnostic

variable {s t : State}

theorem diagnosticDue_of_fetchOutOfRange (h : s.cfg.memSize ≤ s.ca.toNat + 1) :
    diagnosticDue s = some { kind := .fetchRange, addr := s.ca, bytes := none } := if_pos h

theorem diagnosticDue_of_illegal {e : DecodeReject} (hf : s.ca.toNat + 1 < s.cfg.memSize)
    (hd : decode s.cfg (s.ramByte s.ca.toNat) (s.ramByte (s.ca.toNat + 1)) = .error e) :
    diagnosticDue s =
      some { kind := .illegal, addr := s.ca, bytes := some (s.ramByte s.ca.toNat, s.ramByte (s.ca.toNat + 1)) } := by
  rw [diagnosticDue, if_neg (Nat.not_le.2 hf)]
  simp only [hd, Option.map_some]

/-- The record a decoded instruction owes holds its own encoding, which is the two fetched bytes. -/
theorem diagnosticDue_of_instr {i : Instr} (hf : s.ca.toNat + 1 < s.cfg.memSize)
    (hd : decode s.cfg (s.ramByte s.ca.toNat) (s.ramByte (s.ca.toNat + 1)) = .ok i) :
    diagnosticDue s = (instrDiagnostic i s).map fun k => { kind := k, addr := s.ca, bytes := some (encode i) } := by
  rw [diagnosticDue, if_neg (Nat.not_le.2 hf), (encodeOfDecodeIsIdentity _ _ _ _ hd).2]
  simp only [hd]

/-- A step at which a record is due takes the reject path with that record. -/
theorem step_of_diagnosticDue_eq_some {r : DiagRecord} (h : diagnosticDue s = some r) :
    r.addr = s.ca ∧ step s = .next (rejectWith r.kind r.bytes s) := by
  by_cases hf : s.ca.toNat + 1 < s.cfg.memSize
  · cases hd : decode s.cfg (s.ramByte s.ca.toNat) (s.ramByte (s.ca.toNat + 1)) with
    | error e =>
      rw [diagnosticDue_of_illegal hf hd] at h
      cases h
      exact ⟨rfl, step_eq_illegalWord hf hd⟩
    | ok i =>
      rw [diagnosticDue_of_instr hf hd] at h
      obtain ⟨k, hk, rfl⟩ := Option.map_eq_some_iff.1 h
      exact ⟨rfl, (step_eq_exec hf hd).trans (exec_of_instrDiagnostic_eq_some hk)⟩
  · have hle := Nat.le_of_not_lt hf
    rw [diagnosticDue_of_fetchOutOfRange hle] at h
    cases h
    exact ⟨rfl, step_eq_fetchOutOfRange hle⟩

/-- A step at which none is due appends none. -/
theorem step_diag_of_diagnosticDue_eq_none (h : diagnosticDue s = none) (hstep : step s = .next t) : t.diag = s.diag := by
  obtain ⟨hle, -⟩ | ⟨hf, ⟨e, hd, -⟩ | ⟨i, hd, hexec⟩⟩ := step_next_cases hstep
  · exact nomatch (diagnosticDue_of_fetchOutOfRange hle).symm.trans h
  · exact nomatch (diagnosticDue_of_illegal hf hd).symm.trans h
  · rw [diagnosticDue_of_instr hf hd, Option.map_eq_none_iff] at h
    exact exec_diag_of_instrDiagnostic_eq_none h hexec

end StepDiagnostic

/-! ### Where `ca` goes -/

/-- The two advances move `ca`, also where they wrap (R23, D9). -/
theorem add_two_ne (w : Word) : w + 2 ≠ w := by bv_omega

theorem add_four_ne (w : Word) : w + 4 ≠ w := by bv_omega

/-- A jump never stays at its own address: guard (b) turns that into a rejection (R132). -/
theorem jumpTo_ca_ne (i : Instr) (s : State) {target : Nat} (ht : target < 2 ^ 16) : (jumpTo i target s).ca ≠ s.ca := by
  obtain ⟨hrange, hself, hjump⟩ := jumpTo_guards_and_target s i ht
  by_cases hlt : target < s.cfg.memSize
  · by_cases heq : target = s.ca.toNat
    · rw [(hself hlt heq).caAdvanced]
      exact add_two_ne s.ca
    · exact fun hca => heq ((hjump hlt heq).1.symm.trans (congrArg BitVec.toNat hca))
  · rw [(hrange (Nat.le_of_not_lt hlt)).caAdvanced]
    exact add_two_ne s.ca

/-- A skip advances by 4 where its condition holds, else by 2. -/
theorem advanceSkipIf_ca_cases (s : State) {taken : Bool} {p : Prop} (h : taken = true ↔ p) :
    (advanceSkipIf taken s).ca = s.ca + 2 ∨ (advanceSkipIf taken s).ca = s.ca + 4 ∧ p := by
  obtain ⟨htaken, hnot, -⟩ := advanceSkipIf_skips s h
  by_cases hp : p
  · exact .inr ⟨htaken hp, hp⟩
  · exact .inl (hnot hp)

end Machine

open Machine

/-! ### The obligations -/

/-- Settles O14: the four skips advance by what their condition says, the four jumps are exempt, and all others take the default advance,
rejected or not. -/
theorem nonJumpsAdvanceByTwoOrFour : Obligations.NonJumpsAdvanceByTwoOrFour := by
  intro i s t h
  cases i with
  | jp nnn => exact .inr (.inr (.inl ⟨nnn, .inl rfl⟩))
  | jpV0Nnn nnn => exact .inr (.inr (.inl ⟨nnn, .inr (.inl rfl)⟩))
  | call nnn => exact .inr (.inr (.inl ⟨nnn, .inr (.inr rfl)⟩))
  | ret => exact .inr (.inr (.inr rfl))
  | seVxKk x kk =>
    cases h
    exact (advanceSkipIf_ca_cases s beq_iff_eq).imp_right fun ⟨hca, hp⟩ => .inl ⟨hca, .inl ⟨x, kk, rfl, hp⟩⟩
  | sneVxKk x kk =>
    cases h
    exact (advanceSkipIf_ca_cases s bne_iff_ne).imp_right fun ⟨hca, hp⟩ => .inl ⟨hca, .inr (.inl ⟨x, kk, rfl, hp⟩)⟩
  | seVxVy x y =>
    cases h
    exact (advanceSkipIf_ca_cases s beq_iff_eq).imp_right fun ⟨hca, hp⟩ => .inl ⟨hca, .inr (.inr (.inl ⟨x, y, rfl, hp⟩))⟩
  | sneVxVy x y n =>
    cases h
    exact (advanceSkipIf_ca_cases s bne_iff_ne).imp_right fun ⟨hca, hp⟩ => .inl ⟨hca, .inr (.inr (.inr ⟨x, y, n, rfl, hp⟩))⟩
  | addIVx =>
    cases h
    exact .inl (congrArg (· + 2) (writeIndexFlag_ca _ _))
  | ldMemIVx =>
    obtain ⟨-, rfl⟩ | ⟨-, rfl⟩ := execLdMemIVx_next_cases h <;> exact .inl rfl
  | ldVxMemI =>
    obtain ⟨-, rfl⟩ | ⟨-, rfl⟩ := execLdVxMemI_next_cases h <;> exact .inl rfl
  | _ =>
    cases h
    exact .inl rfl

/-- An instruction leaves `ca` or `sp` changed: a call or return that leaves `ca` has moved `sp` (R114, C11). -/
theorem Machine.exec_progress {i : Instr} {s t : State} (h : exec i s = .next t) : t.ca ≠ s.ca ∨ t.sp ≠ s.sp := by
  obtain hca | ⟨hca, -⟩ | ⟨nnn, rfl | rfl | rfl⟩ | rfl := nonJumpsAdvanceByTwoOrFour i s t h
  · exact .inl (hca ▸ add_two_ne s.ca)
  · exact .inl (hca ▸ add_four_ne s.ca)
  · cases h
    exact .inl (jumpTo_ca_ne _ s (by unfold targetNnn; omega))
  · cases h
    exact .inl (jumpTo_ca_ne _ s (by unfold targetV0Nnn; omega))
  · obtain ⟨-, rfl⟩ | ⟨k, hk, rfl⟩ := execCall_next_cases h
    · exact .inl (add_two_ne s.ca)
    · exact .inr fun hsp => absurd (congrArg Fin.val hsp) (by simp [hk])
  · obtain ⟨-, rfl⟩ | ⟨k, hk, rfl⟩ := execRet_next_cases h
    · exact .inl (add_two_ne s.ca)
    · exact .inr fun hsp => absurd (congrArg Fin.val hsp) (by simp [hk])

/-- Settles O13: the two handlers advance by 2, and an executed instruction changes `ca` or `sp`. -/
theorem everyStepMakesProgress : Obligations.EveryStepMakesProgress := by
  intro s t h
  obtain ⟨-, rfl⟩ | ⟨-, ⟨e, -, rfl⟩ | ⟨i, -, hexec⟩⟩ := step_next_cases h
  · exact .inl (add_two_ne s.ca)
  · exact .inl (add_two_ne s.ca)
  · exact exec_progress hexec

/-- Settles O15: the step is the reject path with the record due, or appends nothing. -/
theorem stepAppendsExactlyTheDueDiagnostic : Obligations.StepAppendsExactlyTheDueDiagnostic := by
  intro s t h
  cases hdue : diagnosticDue s with
  | none => rw [step_diag_of_diagnosticDue_eq_none hdue h, Option.toList_none, List.append_nil]
  | some r =>
    obtain ⟨haddr, hstep⟩ := step_of_diagnosticDue_eq_some hdue
    rw [hstep] at h
    cases h
    rw [rejectWith_diag, ← haddr, Option.toList_some]

/-- Settles O16: the step is the reject path with the record due. -/
theorem rejectedStepHasNoOtherEffect : Obligations.RejectedStepHasNoOtherEffect := by
  intro s t r hdue h
  rw [(step_of_diagnosticDue_eq_some hdue).2] at h
  cases h
  exact rejected_rejectWith s r.kind r.bytes

/-- Settles O17: a step appends nothing exactly when nothing is due at it. -/
theorem safeRunMeansNoDiagnosticDue : Obligations.SafeRunMeansNoDiagnosticDue := by
  intro ms s
  constructor
  · rintro ⟨t, hstep, hdiag, hsafe⟩
    have hsame : t.diag = s.diag := hdiag.resolve_left nofun
    have happend := stepAppendsExactlyTheDueDiagnostic s t hstep
    rw [hsame, List.self_eq_append_right, Option.toList_eq_nil_iff] at happend
    exact ⟨happend, t, hstep, hsafe⟩
  · rintro ⟨hnone, t, hstep, hsafe⟩
    exact ⟨t, hstep, .inr (step_diag_of_diagnosticDue_eq_none hnone hstep), hsafe⟩

/-- Each move but a reset keeps what was emitted: a step appends to either trace, an accepted load to the display's, and nothing else writes one. -/
theorem Machine.applyMove_traces_grow {m : Move} {s t : State} (hm : m ≠ .reset) (h : applyMove m s = .next t) :
    s.diag <+: t.diag ∧ s.display <+: t.display := by
  obtain ⟨hstep, hload, -, -⟩ := displayPortEvents
  cases m with
  | reset => exact absurd rfl hm
  | load src =>
    cases hsrc : load src s with
    | error e =>
      rw [applyMove_load_of_error hsrc] at h
      cases h
      exact ⟨⟨[], List.append_nil _⟩, ⟨[], List.append_nil _⟩⟩
    | ok u =>
      rw [applyMove_load_of_ok hsrc] at h
      cases h
      obtain ⟨bytes, -, -, rfl⟩ := load_ok hsrc
      exact ⟨⟨[], List.append_nil _⟩, _, (hload src s _ hsrc).symm⟩
  | step =>
    refine ⟨⟨_, (stepAppendsExactlyTheDueDiagnostic s t h).symm⟩, ?_⟩
    by_cases hcls : s.ca.toNat + 1 < s.cfg.memSize ∧ decode s.cfg (s.ramByte s.ca.toNat) (s.ramByte (s.ca.toNat + 1)) = .ok .cls
    · exact ⟨_, ((hstep s t h).1 hcls).symm⟩
    · rw [(hstep s t h).2 hcls]
  | tick =>
    cases h
    exact ⟨⟨[], List.append_nil _⟩, ⟨[], List.append_nil _⟩⟩

/-- A run that completes is a first move that completes and a run that completes from there. -/
theorem Machine.runMoves_cons_eq_next {m : Move} {ms : List Move} {s u : State} (h : runMoves (m :: ms) s = .next u) :
    ∃ t, applyMove m s = .next t ∧ runMoves ms t = .next u := by
  unfold runMoves at h
  split at h
  case h_1 t hm => exact ⟨t, hm, h⟩
  all_goals exact nomatch h

/-- Over a run without a reset, what was emitted stays, in order. -/
theorem Machine.runMoves_traces_grow {ms : List Move} {s t : State} (hms : .reset ∉ ms) (h : runMoves ms s = .next t) :
    s.diag <+: t.diag ∧ s.display <+: t.display := by
  induction ms generalizing s with
  | nil =>
    cases h
    exact ⟨⟨[], List.append_nil _⟩, ⟨[], List.append_nil _⟩⟩
  | cons m ms ih =>
    rw [List.mem_cons, not_or] at hms
    obtain ⟨hm, hms⟩ := hms
    obtain ⟨u, hmove, hrun⟩ := runMoves_cons_eq_next h
    obtain ⟨hdiag, hdisplay⟩ := applyMove_traces_grow (Ne.symm hm) hmove
    obtain ⟨hdiag', hdisplay'⟩ := ih hms hrun
    exact ⟨hdiag.trans hdiag', hdisplay.trans hdisplay'⟩

/-- Settles O18: each trace after the run begins with the one before it. -/
theorem outputTracesOnlyGrow : Obligations.OutputTracesOnlyGrow := by
  intro ms s t hms h
  obtain ⟨⟨d, hd⟩, ⟨e, he⟩⟩ := runMoves_traces_grow hms h
  exact ⟨⟨d, hd.symm⟩, e, he.symm⟩

/-- Settles O8: the fetched word decodes, so the step is its execution. -/
theorem stepRunsDecodedInstruction : Obligations.StepRunsDecodedInstruction := fun _ _ => step_eq_exec

/-- Settles O11: the step is the FETCH_RANGE handler, which is the reject path without bytes. -/
theorem fetchOutOfRangeAdvances : Obligations.FetchOutOfRangeAdvances := fun s h =>
  ⟨_, step_eq_fetchOutOfRange h, rejected_rejectWith s _ _⟩

/-- Settles O53: the created memory reads 0 at `0x200`, and the word `0x0000` is ILLEGAL. -/
theorem unloadedMachineSlides : Obligations.UnloadedMachineSlides := by
  have hf : State.reset.ca.toNat + 1 < State.reset.cfg.memSize := by decide
  have hd : decode State.reset.cfg (State.reset.ramByte State.reset.ca.toNat) (State.reset.ramByte (State.reset.ca.toNat + 1)) =
      .error .illegalClass0 := by decide
  exact ⟨_, step_eq_illegalWord hf hd, rejected_rejectWith _ _ _, rfl⟩

end Sys2Proof
end

section
/-! SUPPORT. The invariant: the operations that touch none of its parts, the three that do, and with them every instruction, step and move. -/

namespace Sys2Proof

namespace Machine

/-- No instruction writes a parameter. -/
theorem not_mayChange_cfg (i : Instr) : ¬ mayChange i .cfg := by
  cases i <;> simp [mayChange]

section Invariant

variable {s t : State}

/-- The invariant speaks of the parameters, memory, framebuffer and stack alone. -/
theorem Inv.of_same_parts (h : Inv s) (hcfg : t.cfg = s.cfg) (hram : t.ram = s.ram) (hfb : t.fb = s.fb) (hsp : t.sp = s.sp)
    (hstack : t.stack = s.stack) : Inv t where
  cfgInRange := by rw [hcfg]; exact h.cfgInRange
  ramCanonical := by rw [hram]; exact h.ramCanonical
  ramInside := by rw [hcfg, hram]; exact h.ramInside
  framebufferZero := by rw [hfb]; exact h.framebufferZero
  callsFetchable := by rw [hcfg, hsp, hstack]; exact h.callsFetchable

theorem Inv.rejectWith (h : Inv s) (k : DiagKind) (bytes : Option (Byte × Byte)) : Inv (rejectWith k bytes s) :=
  h.of_same_parts rfl rfl rfl rfl rfl

theorem Inv.jumpTo (h : Inv s) (i : Instr) (target : Nat) : Inv (jumpTo i target s) := by
  rw [jumpTo_eq]
  cases jumpDiagnostic target s with
  | none => exact h.of_same_parts rfl rfl rfl rfl rfl
  | some k => exact h.rejectWith k _

theorem Inv.advanceSkipIf (h : Inv s) (b : Bool) : Inv (advanceSkipIf b s) := by
  cases b <;> exact h.of_same_parts rfl rfl rfl rfl rfl

theorem Inv.writeIndexFlag (h : Inv s) (sum : Nat) : Inv (writeIndexFlag sum s) := by
  unfold Machine.writeIndexFlag
  split
  · exact h.of_same_parts rfl rfl rfl rfl rfl
  · split
    · exact h.of_same_parts rfl rfl rfl rfl rfl
    · exact h

theorem Inv.clearFb (h : Inv s) : Inv s.clearFb := { h with framebufferZero := rfl }

/-- A block of stores inside memory keeps `ram` canonical and inside. -/
theorem Inv.storeBytes (h : Inv s) {a : Nat} {bs : List Byte} (hfits : a + bs.length ≤ s.cfg.memSize) :
    Inv (s.setRam (Memory.writeBytes s.ram a bs)) :=
  { h with
    ramCanonical := MemoryLaws.wf_writeBytes a bs h.ramCanonical
    ramInside := MemoryLaws.below_writeBytes bs hfits h.ramInside }

/-- A push of the address of a fetchable instruction; the entries below stay in use. -/
theorem Inv.push (h : Inv s) {k : Fin 16} {w : Word} (hk : s.sp.val = k.val) (hw : w.toNat + 1 < s.cfg.memSize) : Inv (s.push k w) :=
  { h with
    callsFetchable := fun j hj => by
      rw [push_entry]
      split
      · exact hw
      · next hne =>
        have hjk : j.val ≠ k.val := fun e => hne (Fin.ext e)
        have hj' : j.val < k.val + 1 := hj
        exact h.callsFetchable j (by omega) }

/-- A pop leaves fewer entries in use. -/
theorem Inv.pop (h : Inv s) {k : Fin 16} (hk : s.sp.val = k.val + 1) : Inv (s.pop k) :=
  { h with
    callsFetchable := fun j hj => by
      have hj' : j.val < k.val := hj
      exact h.callsFetchable j (by omega) }

/-- An instruction fetched from `ca` keeps the invariant: a CALL needs that `ca` to be fetchable, and all else stays in its own bounds. -/
theorem Inv.exec {i : Instr} (h : Inv s) (hf : s.ca.toNat + 1 < s.cfg.memSize) (hexec : exec i s = .next t) : Inv t := by
  cases i with
  | cls =>
    cases hexec
    exact h.clearFb.of_same_parts rfl rfl rfl rfl rfl
  | ret =>
    obtain ⟨-, rfl⟩ | ⟨k, hk, rfl⟩ := execRet_next_cases hexec
    · exact h.rejectWith _ _
    · exact (h.pop hk).of_same_parts rfl rfl rfl rfl rfl
  | call =>
    obtain ⟨-, rfl⟩ | ⟨k, hk, rfl⟩ := execCall_next_cases hexec
    · exact h.rejectWith _ _
    · exact (h.push hk hf).of_same_parts rfl rfl rfl rfl rfl
  | ldMemIVx x =>
    obtain ⟨-, rfl⟩ | ⟨hfits, rfl⟩ := execLdMemIVx_next_cases hexec
    · exact h.rejectWith _ _
    · have hblock : blockBase s + (blockRegs x s).length ≤ s.cfg.memSize := by rw [blockBase_eq, blockRegs_length]; omega
      exact (h.storeBytes hblock).of_same_parts rfl rfl rfl rfl rfl
  | ldVxMemI =>
    obtain ⟨-, rfl⟩ | ⟨-, rfl⟩ := execLdVxMemI_next_cases hexec
    · exact h.rejectWith _ _
    · exact h.of_same_parts rfl rfl rfl rfl rfl
  | jp | jpV0Nnn =>
    cases hexec
    exact h.jumpTo _ _
  | seVxKk | sneVxKk | seVxVy | sneVxVy =>
    cases hexec
    exact h.advanceSkipIf _
  | addIVx x =>
    cases hexec
    have hidx : Inv (s.setIdx (BitVec.ofNat 16 (s.idx.toNat + (s.reg x).toNat))) := h.of_same_parts rfl rfl rfl rfl rfl
    exact (hidx.writeIndexFlag _).of_same_parts rfl rfl rfl rfl rfl
  | _ =>
    cases hexec
    exact h.of_same_parts rfl rfl rfl rfl rfl

/-- A step keeps it: the two handlers touch none of its parts. -/
theorem Inv.step (h : Inv s) (hstep : step s = .next t) : Inv t := by
  obtain ⟨-, rfl⟩ | ⟨hf, ⟨e, -, rfl⟩ | ⟨i, -, hexec⟩⟩ := step_next_cases hstep
  · exact h.rejectWith _ _
  · exact h.rejectWith _ _
  · exact h.exec hf hexec

/-- The created machine has empty memory, an empty framebuffer and an empty stack. -/
theorem inv_create {c : Config} (h : c.wf = true) : Inv (State.create c) where
  cfgInRange := h
  ramCanonical := MemoryLaws.wf_create c
  ramInside := rfl
  framebufferZero := rfl
  callsFetchable _ hk := absurd hk (Nat.not_lt_zero _)

/-- An image that fits ends inside memory, which begins below `PROG_BASE` in D1's range. -/
theorem Inv.loadImage (h : Inv s) {bytes : List Byte} (hfits : bytes.length ≤ s.cfg.maxImage) : Inv (loadImage bytes s) := by
  have hmem : 0x202 ≤ s.cfg.memSize := by
    have hwf := h.cfgInRange
    rw [Config.wf, Bool.and_eq_true, decide_eq_true_eq] at hwf
    exact hwf.1
  have hblock : Config.progBase + bytes.length ≤ s.cfg.memSize := by
    have hbase : Config.progBase = 0x200 := rfl
    unfold Config.maxImage at hfits
    omega
  exact (h.storeBytes hblock).clearFb.of_same_parts rfl rfl rfl rfl rfl

/-- Every move completes, keeps the invariant and leaves the parameters. -/
theorem Inv.applyMove (h : Inv s) (m : Move) : ∃ t, applyMove m s = .next t ∧ Inv t ∧ t.cfg = s.cfg := by
  cases m with
  | reset => exact ⟨_, rfl, (inv_create h.cfgInRange).of_same_parts rfl rfl rfl rfl rfl, rfl⟩
  | load src =>
    cases hsrc : load src s with
    | error e => exact ⟨s, applyMove_load_of_error hsrc, h, rfl⟩
    | ok t =>
      obtain ⟨bytes, -, hfits, rfl⟩ := load_ok hsrc
      exact ⟨_, applyMove_load_of_ok hsrc, h.loadImage hfits, rfl⟩
  | step =>
    obtain ⟨t, hstep⟩ := step_completes s
    exact ⟨t, hstep, h.step hstep, step_same (p := .cfg) nofun hstep fun i _ _ => not_mayChange_cfg i⟩
  | tick => exact ⟨_, rfl, h.of_same_parts rfl rfl rfl rfl rfl, rfl⟩

theorem runMoves_cons {m : Move} (ms : List Move) (h : Machine.applyMove m s = .next t) : runMoves (m :: ms) s = runMoves ms t := by
  simp only [runMoves, h]

/-- Every run of moves completes, keeps the invariant and leaves the parameters. -/
theorem Inv.runMoves (h : Inv s) (ms : List Move) : ∃ t, runMoves ms s = .next t ∧ Inv t ∧ t.cfg = s.cfg := by
  induction ms generalizing s with
  | nil => exact ⟨s, rfl, h, rfl⟩
  | cons m ms ih =>
    obtain ⟨u, hmove, hu, hcfg⟩ := h.applyMove m
    obtain ⟨t, hrun, ht, hcfg'⟩ := ih hu
    exact ⟨t, (runMoves_cons ms hmove).trans hrun, ht, hcfg'.trans hcfg⟩

end Invariant

end Machine

open Machine

/-- Settles O56: the created machine meets the invariant for parameters in D1's range, which the default ones are. -/
theorem createdMachineMeetsInvariant : Obligations.CreatedMachineMeetsInvariant := ⟨fun _ => inv_create, inv_create rfl⟩

/-- Settles O57: the two handlers keep every part the invariant speaks of, and so does, within its bounds, every instruction fetched. -/
theorem everyStepKeepsInvariant : Obligations.EveryStepKeepsInvariant := fun _ _ => Inv.step

/-- Settles O58, by induction on the moves: each completes and keeps the invariant. -/
theorem everyRunKeepsInvariant : Obligations.EveryRunKeepsInvariant := fun ms _ h => h.runMoves ms

end Sys2Proof
end

section
/-! SUPPORT. Who may write what: the frame of an instruction read by columns, a part at a time. -/

namespace Sys2Proof

namespace Machine

/-- A part that an instruction changed is one it may change. -/
theorem mayChange_of_exec {i : Instr} {s t : State} (h : exec i s = .next t) {p : Part} (hp : ¬ p.same s t) : mayChange i p :=
  not_imp_comm.1 (frame_exec h p) hp

theorem mayChange_idx_iff (i : Instr) : mayChange i .idx ↔ (∃ nnn, i = .ldINnn nnn) ∨ ∃ x, i = .addIVx x := by
  cases i <;> simp [mayChange]

theorem mayChange_sp_iff (i : Instr) : mayChange i .sp ↔ (∃ nnn, i = .call nnn) ∨ i = .ret := by
  cases i <;> simp [mayChange]

theorem mayChange_entry_iff (i : Instr) (k : Fin 16) : mayChange i (.entry k) ↔ ∃ nnn, i = .call nnn := by
  cases i <;> simp [mayChange]

theorem mayChange_dt_iff (i : Instr) : mayChange i .dt ↔ ∃ x, i = .ldDtVx x := by
  cases i <;> simp [mayChange]

theorem mayChange_st_iff (i : Instr) : mayChange i .st ↔ ∃ x, i = .ldStVx x := by
  cases i <;> simp [mayChange]

theorem mayChange_byte_iff (i : Instr) (a : Nat) : mayChange i (.byte a) ↔ ∃ x, i = .ldMemIVx x := by
  cases i <;> simp [mayChange]

theorem mayChange_pixel_iff (i : Instr) (p : Nat) : mayChange i (.pixel p) ↔ i = .cls := by
  cases i <;> simp [mayChange]

/-- Who may write `VF`: the flag-writing operations, and any instruction whose destination is register 15 (R21). -/
theorem mayChange_regVF (i : Instr) (h : mayChange i (.reg 0xF)) :
    (∃ x y, i = .addVxVy x y ∨ i = .subVxVy x y ∨ i = .shrVx x y ∨ i = .subnVxVy x y ∨ i = .shlVx x y) ∨
    (∃ x, i = .addIVx x) ∨
    (∃ kk, i = .ldVxKk 0xF kk ∨ i = .addVxKk 0xF kk ∨ i = .rndVxKk 0xF kk) ∨
    (∃ y, i = .ldVxVy 0xF y ∨ i = .orVxVy 0xF y ∨ i = .andVxVy 0xF y ∨ i = .xorVxVy 0xF y) ∨
    i = .ldVxDt 0xF ∨ i = .ldVxMemI 0xF := by
  cases i with
  | ldVxMemI x =>
    have hx : 15 ≤ x := by simpa [mayChange] using h
    have hlast : x = 15 := Fin.last_le_iff.1 hx
    simp [hlast]
  | _ => simp_all [mayChange, eq_comm]

end Machine

open Machine

/-- Settles O46: a part that changed is one the instruction may change, and each special part has the writers its column names. -/
theorem specialStateHasOnlyItsWriters : Obligations.SpecialStateHasOnlyItsWriters := by
  intro i s t h
  exact ⟨fun hp => (mayChange_idx_iff i).1 (mayChange_of_exec h hp), fun hp => (mayChange_sp_iff i).1 (mayChange_of_exec h hp),
    fun k hp => (mayChange_entry_iff i k).1 (mayChange_of_exec h hp), fun hp => (mayChange_dt_iff i).1 (mayChange_of_exec h hp),
    fun hp => (mayChange_st_iff i).1 (mayChange_of_exec h hp), fun a hp => (mayChange_byte_iff i a).1 (mayChange_of_exec h hp),
    fun p hp => (mayChange_pixel_iff i p).1 (mayChange_of_exec h hp), frame_exec h .cfg (not_mayChange_cfg i)⟩

/-- Settles O47: the same, for register 15. -/
theorem flagRegisterHasOnlyItsWriters : Obligations.FlagRegisterHasOnlyItsWriters := fun i _ _ h hp =>
  mayChange_regVF i (mayChange_of_exec h hp)

end Sys2Proof
end

section
/-! SUPPORT. Noninterference: two states that agree but in their outputs read the same to a program, and every operation keeps that, so every
instruction does, and every step. -/

namespace Sys2Proof

namespace Machine

/-- Whatever a program reads, it reads the same in `s'` as in `s`: `AgreeForPrograms`, a field for each part that is no output. -/
structure SameReads (s s' : State) : Prop where
  ca : s'.ca = s.ca
  cfg : s'.cfg = s.cfg
  reg : ∀ r, s'.reg r = s.reg r
  idx : s'.idx = s.idx
  sp : s'.sp = s.sp
  entry : ∀ k : Fin 16, s'.stack[k] = s.stack[k]
  ramByte : ∀ a, s'.ramByte a = s.ramByte a
  dt : s'.dt = s.dt
  draws : s'.draws = s.draws

theorem agreeForPrograms_iff_sameReads {s s' : State} : AgreeForPrograms s s' ↔ SameReads s s' := by
  constructor
  · rintro ⟨hca, hframe⟩
    exact ⟨hca, hframe .cfg id, fun r => hframe (.reg r) id, hframe .idx id, hframe .sp id, fun k => hframe (.entry k) id,
      fun a => hframe (.byte a) id, hframe .dt id, hframe .draws id⟩
  · intro h
    refine ⟨h.ca, fun p hp => ?_⟩
    cases p with
    | cfg => exact h.cfg
    | reg r => exact h.reg r
    | idx => exact h.idx
    | sp => exact h.sp
    | entry k => exact h.entry k
    | byte a => exact h.ramByte a
    | dt => exact h.dt
    | draws => exact h.draws
    | st | pixel | diag | display => exact absurd trivial hp

section Operations

variable {s s' : State} (h : SameReads s s')

include h

/-! ### Operands -/

theorem SameReads.blockBase : blockBase s' = blockBase s := congrArg BitVec.toNat h.idx

theorem SameReads.blockRegs (x : Reg) : blockRegs x s' = blockRegs x s :=
  List.ext_getElem (by rw [blockRegs_length, blockRegs_length]) fun k _ _ => by rw [blockRegs_getElem, blockRegs_getElem, h.reg]

theorem SameReads.blockBytes (x : Reg) : blockBytes x s' = blockBytes x s :=
  List.ext_getElem (by rw [blockBytes_length, blockBytes_length]) fun k _ _ => by
    rw [blockBytes_getElem, blockBytes_getElem, h.ramByte, h.idx]

theorem SameReads.jumpDiagnostic (target : Nat) : jumpDiagnostic target s' = jumpDiagnostic target s := by
  rw [Machine.jumpDiagnostic, Machine.jumpDiagnostic, h.cfg, h.ca]

/-! ### Writes of one value to both states -/

theorem SameReads.setCa {w w' : Word} (hw : w' = w) : SameReads (s.setCa w) (s'.setCa w') := { h with ca := hw }

theorem SameReads.setReg (x : Reg) {b b' : Byte} (hb : b' = b) : SameReads (s.setReg x b) (s'.setReg x b') :=
  { h with reg := fun r => by rw [setReg_reg, setReg_reg, hb, h.reg] }

theorem SameReads.setRegs {bs bs' : List Byte} (hbs : bs' = bs) : SameReads (s.setRegs bs) (s'.setRegs bs') :=
  { h with reg := fun r => by subst hbs; rw [setRegs_reg, setRegs_reg, h.reg] }

theorem SameReads.setIdx {w w' : Word} (hw : w' = w) : SameReads (s.setIdx w) (s'.setIdx w') := { h with idx := hw }

theorem SameReads.setDt {b b' : Byte} (hb : b' = b) : SameReads (s.setDt b) (s'.setDt b') := { h with dt := hb }

theorem SameReads.push (k : Fin 16) {w w' : Word} (hw : w' = w) : SameReads (s.push k w) (s'.push k w') :=
  { h with sp := rfl, entry := fun j => by rw [push_entry, push_entry, hw, h.entry] }

theorem SameReads.pop (k : Fin 16) : SameReads (s.pop k) (s'.pop k) := { h with sp := rfl }

theorem SameReads.drawn : SameReads s.drawn s'.drawn := { h with draws := congrArg (· + 1) h.draws }

theorem SameReads.storeBytes {a a' : Nat} {bs bs' : List Byte} (ha : a' = a) (hbs : bs' = bs) :
    SameReads (s.setRam (Memory.writeBytes s.ram a bs)) (s'.setRam (Memory.writeBytes s'.ram a' bs')) :=
  { h with
    ramByte := fun b => by
      subst ha hbs
      have hb : Memory.read s'.ram b = Memory.read s.ram b := h.ramByte b
      rw [setRam_ramByte, setRam_ramByte, MemoryLaws.read_writeBytes, MemoryLaws.read_writeBytes, hb] }

/-! ### Outputs, whatever is written to them -/

theorem SameReads.emitDiag (r r' : DiagRecord) : SameReads (s.emitDiag r) (s'.emitDiag r') := { h with }

theorem SameReads.emitDisplay (e e' : DisplayEvent) : SameReads (s.emitDisplay e) (s'.emitDisplay e') := { h with }

theorem SameReads.clearFb : SameReads s.clearFb s'.clearFb := { h with }

theorem SameReads.setSt (b b' : Byte) : SameReads (s.setSt b) (s'.setSt b') := { h with }

/-! ### The shared operations -/

theorem SameReads.advance : SameReads (advance s) (advance s') := h.setCa (by rw [h.ca])

theorem SameReads.advanceSkipIf {b b' : Bool} (hb : b' = b) : SameReads (advanceSkipIf b s) (advanceSkipIf b' s') := by
  subst hb
  cases b'
  · exact h.advance
  · exact h.setCa (by rw [h.ca])

theorem SameReads.rejectWith (k k' : DiagKind) (bytes bytes' : Option (Byte × Byte)) :
    SameReads (rejectWith k bytes s) (rejectWith k' bytes' s') := (h.emitDiag _ _).advance

theorem SameReads.jumpTo (i : Instr) {target target' : Nat} (ht : target' = target) :
    SameReads (jumpTo i target s) (jumpTo i target' s') := by
  subst ht
  rw [jumpTo_eq, jumpTo_eq, h.jumpDiagnostic]
  cases Machine.jumpDiagnostic target' s with
  | none => exact h.setCa rfl
  | some k => exact h.rejectWith k k _ _

theorem SameReads.writeResultThenFlag (x : Reg) {r r' f f' : Byte} (hr : r' = r) (hf : f' = f) :
    SameReads (writeResultThenFlag x r f s) (writeResultThenFlag x r' f' s') :=
  ((h.setReg x hr).setReg regVF hf).advance

theorem SameReads.writeIndexFlag {sum sum' : Nat} (hsum : sum' = sum) :
    SameReads (writeIndexFlag sum s) (writeIndexFlag sum' s') := by
  subst hsum
  unfold Machine.writeIndexFlag
  rw [h.cfg]
  split
  · exact h.setReg regVF rfl
  · split
    · exact h.setReg regVF rfl
    · exact h

end Operations

/-! ### Instructions and steps -/

/-- Two states that read the same execute an instruction to states that read the same: its conditions, operands and values are all reads. -/
theorem SameReads.exec {s s' t t' : State} {i : Instr} (h : SameReads s s') (hexec : exec i s = .next t)
    (hexec' : exec i s' = .next t') : SameReads t t' := by
  cases i with
  | cls => cases hexec; cases hexec'; exact (h.clearFb.emitDisplay _ _).advance
  | ret =>
    obtain ⟨hempty, rfl⟩ | ⟨k, hk, rfl⟩ := execRet_next_cases hexec
    · rw [Machine.exec, execRet_of_empty (by rw [h.sp, hempty])] at hexec'
      cases hexec'
      exact h.rejectWith _ _ _ _
    · rw [Machine.exec, execRet_of_entry (k := k) (by rw [h.sp, hk])] at hexec'
      cases hexec'
      exact (h.pop k).setCa (by rw [h.entry])
  | call nnn =>
    obtain ⟨hfull, rfl⟩ | ⟨k, hk, rfl⟩ := execCall_next_cases hexec
    · rw [Machine.exec, execCall_of_full (by rw [h.sp, hfull])] at hexec'
      cases hexec'
      exact h.rejectWith _ _ _ _
    · rw [Machine.exec, execCall_of_free (k := k) (by rw [h.sp, hk])] at hexec'
      cases hexec'
      exact (h.push k h.ca).setCa rfl
  | ldMemIVx x =>
    obtain ⟨hle, rfl⟩ | ⟨hfits, rfl⟩ := execLdMemIVx_next_cases hexec
    · rw [Machine.exec, execLdMemIVx_of_memSize_le (by rw [h.idx, h.cfg]; exact hle)] at hexec'
      cases hexec'
      exact h.rejectWith _ _ _ _
    · rw [Machine.exec, execLdMemIVx_of_fits (by rw [h.idx, h.cfg]; exact hfits)] at hexec'
      cases hexec'
      exact (h.storeBytes h.blockBase (h.blockRegs x)).advance
  | ldVxMemI x =>
    obtain ⟨hle, rfl⟩ | ⟨hfits, rfl⟩ := execLdVxMemI_next_cases hexec
    · rw [Machine.exec, execLdVxMemI_of_memSize_le (by rw [h.idx, h.cfg]; exact hle)] at hexec'
      cases hexec'
      exact h.rejectWith _ _ _ _
    · rw [Machine.exec, execLdVxMemI_of_fits (by rw [h.idx, h.cfg]; exact hfits)] at hexec'
      cases hexec'
      exact (h.setRegs (h.blockBytes x)).advance
  | jp nnn => cases hexec; cases hexec'; exact h.jumpTo _ rfl
  | jpV0Nnn nnn => cases hexec; cases hexec'; exact h.jumpTo _ (by rw [targetV0Nnn, targetV0Nnn, h.reg])
  | seVxKk | sneVxKk | seVxVy | sneVxVy => cases hexec; cases hexec'; exact h.advanceSkipIf (by simp only [h.reg])
  | ldVxKk | addVxKk | ldVxVy | orVxVy | andVxVy | xorVxVy => cases hexec; cases hexec'; exact (h.setReg _ (by simp only [h.reg])).advance
  | ldVxDt => cases hexec; cases hexec'; exact (h.setReg _ h.dt).advance
  | addVxVy | subVxVy | shrVx | subnVxVy | shlVx =>
    cases hexec; cases hexec'; exact h.writeResultThenFlag _ (by simp only [h.reg]) (by simp only [h.reg])
  | rndVxKk x kk =>
    cases hexec; cases hexec'
    exact (h.drawn.setReg x (by rw [State.nextRandom, State.nextRandom, h.draws])).advance
  | drwVxVyN | skpVx | sknpVx | ldVxK | ldFVx | ldBVx => cases hexec; cases hexec'; exact h.rejectWith _ _ _ _
  | ldDtVx x => cases hexec; cases hexec'; exact (h.setDt (h.reg x)).advance
  | ldStVx => cases hexec; cases hexec'; exact (h.setSt _ _).advance
  | ldINnn => cases hexec; cases hexec'; exact (h.setIdx rfl).advance
  | addIVx x =>
    have hsum : s'.idx.toNat + (s'.reg x).toNat = s.idx.toNat + (s.reg x).toNat := by rw [h.idx, h.reg]
    cases hexec; cases hexec'
    exact ((h.setIdx (congrArg _ hsum)).writeIndexFlag hsum).advance

/-- Two states that read the same step to states that read the same: they fetch the same bytes, or none. -/
theorem SameReads.step {s s' t t' : State} (h : SameReads s s') (hstep : step s = .next t) (hstep' : step s' = .next t') :
    SameReads t t' := by
  have hbytes : decode s'.cfg (s'.ramByte s'.ca.toNat) (s'.ramByte (s'.ca.toNat + 1)) =
      decode s.cfg (s.ramByte s.ca.toNat) (s.ramByte (s.ca.toNat + 1)) := by
    rw [h.cfg, h.ca, h.ramByte, h.ramByte]
  obtain ⟨hle, rfl⟩ | ⟨hf, ⟨e, hd, rfl⟩ | ⟨i, hd, hexec⟩⟩ := step_next_cases hstep
  · rw [step_eq_fetchOutOfRange (by rw [h.cfg, h.ca]; exact hle)] at hstep'
    cases hstep'
    exact h.rejectWith _ _ _ _
  · rw [step_eq_illegalWord (by rw [h.cfg, h.ca]; exact hf) (hbytes.trans hd)] at hstep'
    cases hstep'
    exact h.rejectWith _ _ _ _
  · rw [step_eq_exec (by rw [h.cfg, h.ca]; exact hf) (hbytes.trans hd)] at hstep'
    exact h.exec hexec hstep'

end Machine

open Machine

/-- Settles O50: states that agree read the same, step to states that read the same, and these agree. -/
theorem outputsNeverInfluenceExecution : Obligations.OutputsNeverInfluenceExecution := fun _ _ _ _ h hstep hstep' =>
  agreeForPrograms_iff_sameReads.2 ((agreeForPrograms_iff_sameReads.1 h).step hstep hstep')

end Sys2Proof
end

section
/-! SUPPORT. The remaining instructions one by one, the tick, and the two statements of several steps. -/

namespace Sys2Proof

/-! ### Words and their bytes -/

/-- The two bytes of an instruction of format `XKK` (R81, R83). -/
theorem encode_of_wordXKK {i : Instr} {c : Nibble} {x : Reg} {kk : Byte} (h : encodeWord i = wordXKK c x kk) :
    encode i = (c ++ regBits x, kk) := by
  rw [encode, h, byteHi_wordXKK, byteLo_wordXKK]

/-- Fetched bytes that are those of a well-formed instruction decode to it. -/
theorem decode_of_encode_eq {c : Config} {i : Instr} {byte0 byte1 : Byte} (hwf : i.wellFormed c = true)
    (h : encode i = (byte0, byte1)) : decode c byte0 byte1 = .ok i := by
  have hd := decode_encode hwf
  rwa [h] at hd

namespace Machine

/-- A rejected instruction is recorded with its two bytes. -/
theorem rejected_reject (s : State) (k : DiagKind) {i : Instr} {bytes : Byte × Byte} (h : encode i = bytes) :
    Rejected k (some bytes) s (reject k i s) := by
  rw [← h]
  exact rejected_rejectWith s k _

/-- The byte a block of registers leaves at `I + k`. -/
theorem storeBlock_ramByte (s : State) {x k : Reg} (hk : k ≤ x) :
    (advance (s.setRam (Memory.writeBytes s.ram (blockBase s) (blockRegs x s)))).ramByte (s.idx.toNat + k.val) = s.reg k := by
  have hk' : k.val ≤ x.val := hk
  have hin : blockBase s ≤ s.idx.toNat + k.val ∧ s.idx.toNat + k.val < blockBase s + (blockRegs x s).length := by
    rw [blockBase_eq, blockRegs_length]
    omega
  rw [advance, setCa_ramByte, setRam_ramByte, MemoryLaws.read_writeBytes, dif_pos hin, blockRegs_getElem]
  simp [blockBase_eq]

/-- The register a block of bytes leaves at `k`. -/
theorem loadBlock_reg (s : State) {x k : Reg} (hk : k ≤ x) :
    (advance (s.setRegs (blockBytes x s))).reg k = s.ramByte (s.idx.toNat + k.val) := by
  have hk' : k.val < (blockBytes x s).length := by
    rw [blockBytes_length]
    exact Nat.lt_succ_of_le hk
  rw [advance_reg, setRegs_reg, dif_pos hk', blockBytes_getElem]

end Machine

open Machine

/-! ### Control flow -/

/-- Settles O19: CLS empties the framebuffer and sends its one event. -/
theorem clsClearsAndSendsOneClear : Obligations.ClsClearsAndSendsOneClear := fun s =>
  ⟨decodeWord_encodeWord (i := .cls) rfl, _, rfl, rfl, clearFb_pixel s, rfl,
    ((frame_clearFb s fun q => .inr ⟨q, rfl⟩).trans (frame_emitDisplay _ _ (.inl rfl))).trans (frame_advance _)⟩

/-- Settles O20: RET is the reject path on an empty stack, and with entry `k` topmost the pop of `k` and a jump past its address. -/
theorem retResumesAfterCallSite : Obligations.RetResumesAfterCallSite := by
  intro s
  obtain ⟨t, ht⟩ := execRet_completes s
  refine ⟨decodeWord_encodeWord (i := .ret) rfl, t, ht, fun hempty => ?empty, fun k hk => ?entry⟩
  case empty =>
    rw [execRet_of_empty hempty] at ht
    cases ht
    exact rejected_rejectWith s _ _
  case entry =>
    rw [execRet_of_entry hk] at ht
    cases ht
    exact ⟨rfl, rfl, Frame.trans (frame_pop s k rfl) (frame_setCa _ _)⟩

/-- Settles O22: CALL is the reject path on a full stack, and with entry `k` free the push of `ca` there and an unguarded jump. -/
theorem callPushesOwnAddress : Obligations.CallPushesOwnAddress := by
  intro nnn s
  obtain ⟨t, ht⟩ := execCall_completes s nnn
  refine ⟨decodeWord_encodeWord (i := .call nnn) rfl, t, ht, fun hfull => ?full, fun k hk => ?free⟩
  case full =>
    rw [execCall_of_full hfull] at ht
    cases ht
    exact rejected_reject s _ (encode_of_wordNNN rfl)
  case free =>
    rw [execCall_of_free hk] at ht
    cases ht
    exact ⟨(push_entry s k k s.ca).trans (if_pos rfl), rfl, zext16_toNat nnn, (frame_push s s.ca (.inr rfl) (.inl rfl)).trans (frame_setCa _ _)⟩

/-- Settles O24: class 9 examines the trailing nibble only where the parameter says so, and SNE is the skip on the difference of its registers. -/
theorem sneVxVySkipsWhenDifferent : Obligations.SneVxVySkipsWhenDifferent := by
  intro x y n s
  refine ⟨fun hn => ?accepted, fun hc hn => ?illegal, _, rfl, advanceSkipIf_bne_skips s (s.reg x) (s.reg y)⟩
  case accepted => exact decodeWord_encodeWord (i := .sneVxVy x y n) (by simpa [Instr.wellFormed] using hn)
  case illegal =>
    exact decodeWord_error_iff.2 ⟨fieldClass_wordXYN 0x9 x y n, hc, (fieldN_wordXYN 0x9 x y n).trans_ne hn⟩

/-- Settles O25: executing JP V0 is the guarded jump to the exact sum, at most `0x10FE` and so a value of `ca`. -/
theorem jpV0GuardsAndTarget : Obligations.JpV0GuardsAndTarget := by
  intro nnn s target
  have hbytes : encode (.jpV0Nnn nnn) = (0xB#4 ++ nnn.extractLsb' 8 4, nnn.extractLsb' 0 8) := encode_of_wordNNN rfl
  have htarget : target < 2 ^ 16 := by omega
  rw [← hbytes]
  exact ⟨decodeWord_encodeWord (i := .jpV0Nnn nnn) rfl, _, rfl, jumpTo_guards_and_target s (.jpV0Nnn nnn) htarget⟩

/-! ### Index and memory -/

/-- Settles O38: `I` takes the exact sum modulo 65536, and the flag is chosen by the same sum, the ceiling and the parameter. -/
theorem addIVxSumAndCeilingFlag : Obligations.AddIVxSumAndCeilingFlag := by
  intro x s sum
  have hflag : (advance (writeIndexFlag sum (s.setIdx (BitVec.ofNat 16 sum)))).reg 0xF =
      if s.cfg.addrCeiling < sum then 1 else if s.cfg.fx1eClearsVF = true then 0 else s.reg 0xF := by
    rw [advance_reg, writeIndexFlag_reg, if_pos rfl, setIdx_cfg, setIdx_reg]
  refine ⟨decodeWord_encodeWord (i := .addIVx x) rfl, _, rfl, congrArg (· + 2) (writeIndexFlag_ca _ _), ?index,
    fun hgt => hflag.trans (if_pos hgt), fun hle hclear => ?cleared, fun hle hkeep => ?kept, ?frame⟩
  case index => exact (congrArg BitVec.toNat (writeIndexFlag_idx _ _)).trans (BitVec.toNat_ofNat _ 16)
  case cleared => exact hflag.trans ((if_neg (Nat.not_lt.2 hle)).trans (if_pos hclear))
  case kept => exact hflag.trans ((if_neg (Nat.not_lt.2 hle)).trans (if_neg (by rw [hkeep]; nofun)))
  case frame =>
    exact ((frame_setIdx s _ (.inl rfl)).trans (frame_writeIndexFlag _ _ (.inr rfl))).trans (frame_advance _)

/-- Settles O39: where the block fits, byte `I + k` is the block's `k`th and no byte outside the block is written; else the reject path. -/
theorem ldMemIVxDumpsRegisters : Obligations.LdMemIVxDumpsRegisters := by
  intro x s
  obtain ⟨t, ht⟩ := execLdMemIVx_completes s x
  refine ⟨decodeWord_encodeWord (i := .ldMemIVx x) rfl, t, ht, fun hle => ?outside, fun hfits => ?fits⟩
  case outside =>
    rw [execLdMemIVx_of_memSize_le hle] at ht
    cases ht
    exact rejected_reject s _ (encode_of_wordXKK rfl)
  case fits =>
    rw [execLdMemIVx_of_fits hfits] at ht
    cases ht
    refine ⟨rfl, fun k => storeBlock_ramByte s, (frame_storeBytes s _ _ fun k hk => ?_).trans (frame_advance _)⟩
    rw [blockRegs_length] at hk
    exact ⟨⟨k, by omega⟩, Nat.le_of_lt_succ hk, rfl⟩

/-- Settles O40: where the block fits, `V[k]` is the block's `k`th byte and no register outside the block is written; else the reject path. -/
theorem ldVxMemILoadsRegisters : Obligations.LdVxMemILoadsRegisters := by
  intro x s
  obtain ⟨t, ht⟩ := execLdVxMemI_completes s x
  refine ⟨decodeWord_encodeWord (i := .ldVxMemI x) rfl, t, ht, fun hle => ?outside, fun hfits => ?fits⟩
  case outside =>
    rw [execLdVxMemI_of_memSize_le hle] at ht
    cases ht
    exact rejected_reject s _ (encode_of_wordXKK rfl)
  case fits =>
    rw [execLdVxMemI_of_fits hfits] at ht
    cases ht
    refine ⟨rfl, fun k => loadBlock_reg s, (frame_setRegs s _ fun k hk => ?_).trans (frame_advance _)⟩
    rw [blockBytes_length] at hk
    exact ⟨k, Nat.le_of_lt_succ hk, rfl⟩

/-! ### Random byte, timers, reset -/

/-- Settles O43: RND writes the masked byte of this draw and counts the draw. -/
theorem rndVxKkLoadsMaskedRandom : Obligations.RndVxKkLoadsMaskedRandom := fun x kk s =>
  ⟨decodeWord_encodeWord (i := .rndVxKk x kk) rfl, _, rfl, rfl, setReg_reg_same s.drawn x _, rfl,
    (frame_drawn s (.inr rfl)).trans (frame_loadMasked _ _ _ (.inl rfl))⟩

/-- Settles O44: LD writes the delay timer to its register, which the advance keeps. -/
theorem ldVxDtReadsDelayTimer : Obligations.LdVxDtReadsDelayTimer := fun x s =>
  ⟨decodeWord_encodeWord (i := .ldVxDt x) rfl, _, rfl, advance_setReg_writes s x s.dt⟩

/-- Settles O45: each writes `V[x]` to its own timer and advances. -/
theorem timerLoadsWriteTheirTimer : Obligations.TimerLoadsWriteTheirTimer := fun x s =>
  ⟨⟨decodeWord_encodeWord (i := .ldDtVx x) rfl, _, rfl, rfl, rfl, Frame.trans (frame_setDt s _ rfl) (frame_advance _)⟩,
    ⟨decodeWord_encodeWord (i := .ldStVx x) rfl, _, rfl, rfl, rfl, Frame.trans (frame_setSt s _ rfl) (frame_advance _)⟩⟩

/-- Settles O52: the reset state is the created one with the default parameters, whose values these are. -/
theorem resetParametersAndTraces : Obligations.ResetParametersAndTraces := ⟨rfl, rfl, rfl, rfl, rfl, rfl, rfl, rfl, rfl⟩

/-- Settles O54: the tick counts each timer down and touches nothing else. -/
theorem tickCountsDownToZero : Obligations.TickCountsDownToZero := fun s =>
  ⟨_, rfl, countDown_toNat s.dt, countDown_toNat s.st, rfl, frame_tick s (.inl rfl) (.inr rfl)⟩

/-! ### Several steps -/

/-- Settles O26: the CALL pushes its address to entry `k` and lands on the RET, which pops entry `k`; `sp` is counted up and down again. -/
theorem callThenRetRestores : Obligations.CallThenRetRestores := by
  intro nnn k s hk hf hb0 hb1 hf' hb0' hb1'
  let t := (s.push k s.ca).setCa (zext16 nnn)
  have hcall : step s = .next t := by
    have hd : decode s.cfg (s.ramByte s.ca.toNat) (s.ramByte (s.ca.toNat + 1)) = .ok (.call nnn) := by
      rw [hb0, hb1]
      exact decode_of_encode_eq rfl (encode_of_wordNNN rfl)
    exact (step_eq_exec hf hd).trans (execCall_of_free hk)
  have hret : step t = .next ((t.pop k).setCa (t.stack[k] + 2)) := by
    have hca : t.ca.toNat = nnn.toNat := zext16_toNat nnn
    have hft : t.ca.toNat + 1 < t.cfg.memSize := hca.symm ▸ hf'
    have hd : decode t.cfg (t.ramByte t.ca.toNat) (t.ramByte (t.ca.toNat + 1)) = .ok .ret := by
      rw [hca]
      exact decode_of_encode_eq rfl (Prod.ext hb0'.symm hb1'.symm)
    exact (step_eq_exec hft hd).trans (execRet_of_entry (s := t) (k := k) rfl)
  have hentry : t.stack[k] = s.ca := (push_entry s k k s.ca).trans (if_pos rfl)
  have hsp : ((t.pop k).setCa (t.stack[k] + 2)).sp = s.sp := Fin.ext hk.symm
  have hframe : Frame (fun p => p = .sp ∨ p = .entry k) s ((t.pop k).setCa (t.stack[k] + 2)) :=
    (((frame_push s s.ca (.inr rfl) (.inl rfl)).trans (frame_setCa _ _)).trans (frame_pop t k (.inl rfl))).trans (frame_setCa _ _)
  refine ⟨t, _, hcall, hret, congrArg (· + 2) hentry, hsp, hentry, fun p hp => ?_⟩
  by_cases hpsp : p = .sp
  · rw [hpsp]
    exact hsp
  · exact hframe p (not_or.2 ⟨hpsp, hp⟩)

/-- Settles O41: the dump's first two bytes lie at `ca + 2` and `ca + 3`, which is where the next step fetches. -/
theorem storeIsSeenByNextFetch : Obligations.StoreIsSeenByNextFetch := by
  intro x s hf hsize hb0 hb1 hidx hx hfits
  let t := advance (s.setRam (Memory.writeBytes s.ram (blockBase s) (blockRegs x s)))
  have hstep : step s = .next t := by
    have hd : decode s.cfg (s.ramByte s.ca.toNat) (s.ramByte (s.ca.toNat + 1)) = .ok (.ldMemIVx x) := by
      rw [hb0, hb1]
      exact decode_of_encode_eq rfl (encode_of_wordXKK rfl)
    exact (step_eq_exec (by omega) hd).trans (execLdMemIVx_of_fits hfits)
  have hca : t.ca.toNat = s.idx.toNat := congrArg BitVec.toNat hidx.symm
  have h0 : t.ramByte s.idx.toNat = s.reg 0 := storeBlock_ramByte s (Fin.zero_le x)
  have h1 : t.ramByte (s.idx.toNat + 1) = s.reg 1 := storeBlock_ramByte s (k := 1) hx
  have hft : t.ca.toNat + 1 < t.cfg.memSize := by
    have hcfg : t.cfg = s.cfg := rfl
    rw [hca, hcfg]
    omega
  exact ⟨t, hstep, (fetch_some_iff t _).2 ⟨hft, by rw [hca, h0, h1]⟩⟩

end Sys2Proof
end
